-- ==== Sys2Proof/Word.lean ====
section
/-! DEFINITION. The byte and the reduction modulo 256 (spec 00_scope.md R8, R9). -/

namespace Sys2Proof

/-- The one word of the machine: registers, memory cells, operand bytes and opcode bytes are unsigned
8-bit values (R9, R15, R36). -/
abbrev Byte := BitVec 8

/-- `wrap8(v) = v mod 256` of a natural number (R9). -/
def wrap8 (v : Nat) : Byte := BitVec.ofNat 8 v

/-- `wrap8(v)` of an integer, with the mathematical (non-negative) remainder, so `wrap8(-1) = 255` (R9). -/
def wrap8Int (v : Int) : Byte := BitVec.ofInt 8 v

end Sys2Proof
end

