-- ==== Sys2Proof/Config.lean ====
section
/-! DEFINITION. The fixed parameters of the hardware (spec 00_scope.md R6) and the default of the parameter
ENTRY_PC (R7a). The default of OPCODE_MAP (R7c) is `Sys2Proof.opcodeByte` in Decode.lean; IMAGE (R7b) is an
argument of `Sys2Proof.Machine.launch`. No rule of this spec leaves a value free, so there is no opaque constant. -/

namespace Sys2Proof.Config

/-- Number of memory cells: addresses 0 to 255 (R6, R36). -/
def memSize : Nat := 256

/-- The register that is the stack pointer (R6, R17). -/
def spIndex : Fin 8 := 7

/-- Reset value of the stack pointer (R6, R20). -/
def spReset : Byte := 0xF4

/-- Default of the parameter ENTRY_PC (R7a, R23). -/
def entryPc : Byte := 0

/-- Bytes of the longest instruction (R55). -/
def maxInstrBytes : Nat := 3

end Sys2Proof.Config
end

