-- ==== Sys2Proof/Machine/State.lean ====
section
/-! DEFINITION. The architectural state of the core, exactly the elements of spec 10_state.md R14, its reset value
(R133), and the reasons a step can stop. -/

namespace Sys2Proof.Machine

/-- The memory array `M` (R36) as a sorted list of (address, byte) pairs; an address that is not listed holds 0, the
reset contents of every cell (R40). The canonical form is `Memory.wf` in Ops.lean. -/
abbrev Memory := List Host.Cell

/-- The eight general registers (R15); `r7` is the stack pointer (R17). -/
structure RegFile where
  r0 : Byte
  r1 : Byte
  r2 : Byte
  r3 : Byte
  r4 : Byte
  r5 : Byte
  r6 : Byte
  r7 : Byte
  deriving DecidableEq, Repr

/-- The three condition bits Less-than, Greater-than and Equal (R24); they have no byte layout (R27). -/
structure Flags where
  l : Bool
  g : Bool
  e : Bool
  deriving DecidableEq, Repr

/-- What an out-of-bounds index was an index of (R29). -/
inductive ErrorSpace where
  | memory
  | register
  deriving DecidableEq, Repr

/-- The record of a fatal error (R29, R113). -/
inductive MachineError where
  /-- R114: `byte`, fetched at `pc`, is not an opcode. -/
  | invalidOpcode (pc : Nat) (byte : Byte)
  /-- R115: the DIV or MOD at `pc` has a zero divisor. -/
  | divisionByZero (pc : Nat)
  /-- R116, R117: the instruction at `pc` used the address or register index `index`. -/
  | outOfBounds (space : ErrorSpace) (index : Nat) (pc : Nat)
  deriving DecidableEq, Repr

/-- One event of the output stream (R12): a number to be shown in decimal, or a character by its code point. -/
inductive Event where
  | dec (v : Byte)
  | char (c : Byte)
  deriving DecidableEq, Repr

/-- The state of the core (R14). -/
structure State where
  /-- The memory array (R36). -/
  mem : Memory
  /-- The register file (R15). -/
  regs : RegFile
  /-- The program counter, a natural number 0 to 256 that never wraps (R21; log entry 2). -/
  pc : Nat
  /-- The flags register (R24). -/
  flags : Flags
  /-- The running flag (R28). -/
  running : Bool
  /-- The error status; `none` is the spec's `None` (R29). -/
  err : Option MachineError
  /-- The output stream, oldest event first (R34). -/
  out : List Event
  deriving DecidableEq, Repr

/-- Why the model stops. The machine's own errors are NOT here: they are next states with `err` set and `running`
cleared (R119). -/
inductive Fault where
  /-- Raised by `step` on a state that is not running: "No step is defined while `running = 0`" (R78). Safe: it says
  that nothing more happens. -/
  | halted
  deriving DecidableEq, Repr

/-- What the model declines. -/
inductive Refusal where
  /-- An instruction without a meaning. No arm of `exec` answers it: all 24 instructions have one. Safe. -/
  | notModelled (mnemonic : String)
  /-- Raised by `launch` alone, on an image of more than 256 bytes: it "has no meaning for this hardware and a model
  refuses it" (R54). Safe. -/
  | imageTooLong
  deriving DecidableEq, Repr

/-- What one instruction or one step answers. -/
abbrev Result := Host.Outcome State Fault Refusal

/-- The machine right after reset, with the default entry address and nothing loaded (R133): memory zero, R0 to R6
zero, R7 = 0xF4, `pc = ENTRY_PC`, flags clear, running, no error, no output. -/
def State.reset : State where
  mem := []
  regs := ⟨0, 0, 0, 0, 0, 0, 0, Config.spReset⟩
  pc := Config.entryPc.toNat
  flags := ⟨false, false, false⟩
  running := true
  err := none
  out := []

end Sys2Proof.Machine
end

