-- ==== Sys2Proof/Machine/Ops.lean ====
section
/-! DEFINITION. The named operations over memory, registers, program counter, output stream and error status (spec
00_scope.md R10 to R12, 10_state.md, 20_memory.md, 43_stack.md R103, 60_exceptions.md R119). -/

namespace Sys2Proof.Machine

/-! ### The memory array -/

/-- Every listed address is at least `lo` and below 256, addresses strictly rise, and no listed byte is 0. -/
def Memory.wfFrom (lo : Nat) : Memory → Bool
  | [] => true
  | (a, v) :: rest => decide (lo ≤ a) && decide (a < Config.memSize) && (v != 0) && Memory.wfFrom (a + 1) rest

/-- The canonical form of a memory: strictly rising addresses below 256, none listed with the byte an unlisted address
reads as. -/
def Memory.wf (m : Memory) : Bool := Memory.wfFrom 0 m

/-- What a cell that is not listed holds: every cell is zero at reset (R36, R40). -/
def Memory.unlisted : Byte := 0

/-- `M[addr]` (R36). -/
def Memory.read : Memory → Nat → Byte
  | [], _ => Memory.unlisted
  | (b, v) :: rest, addr => if b = addr then v else Memory.read rest addr

/-- The memory without any entry for `addr`. -/
def Memory.erase : Memory → Nat → Memory
  | [], _ => []
  | (b, v) :: rest, addr => if b = addr then Memory.erase rest addr else (b, v) :: Memory.erase rest addr

/-- The memory with `(addr, v)` before the first larger address. -/
def Memory.insert : Memory → Nat → Byte → Memory
  | [], addr, v => [(addr, v)]
  | (b, w) :: rest, addr, v =>
    if addr < b then (addr, v) :: (b, w) :: rest else (b, w) :: Memory.insert rest addr v

/-- `M[addr] <- v` in canonical form: writing what an unlisted cell reads as removes the entry. -/
def Memory.write (m : Memory) (addr : Nat) (v : Byte) : Memory :=
  if v = Memory.unlisted then m.erase addr else (m.erase addr).insert addr v

/-- Writes `bytes` at `addr` upward, "in file order" (R54). Cells past 255 do not exist, so nothing is written there. -/
def Memory.place : Memory → Nat → List Byte → Memory
  | m, _, [] => m
  | m, addr, v :: rest =>
    if addr < Config.memSize then Memory.place (m.write addr v) (addr + 1) rest else m

/-! ### Checked memory access -/

/-- `MemRead(addr, 1)` (R37). -/
def State.memRead (s : State) (addr : Nat) : Except MachineError Byte :=
  if addr > 255 then .error (.outOfBounds .memory addr s.pc) else .ok (s.mem.read addr)

/-- `MemWrite(addr, 1, v)` (R38). -/
def State.memWrite (s : State) (addr : Nat) (v : Byte) : Except MachineError State :=
  if addr > 255 then .error (.outOfBounds .memory addr s.pc) else .ok { s with mem := s.mem.write addr v }

/-- `MemRead` at an 8-bit address, which "can never be out of range" (R39). -/
def State.load (s : State) (addr : Byte) : Byte := s.mem.read addr.toNat

/-- `MemWrite` at an 8-bit address, which "can never be out of range" (R39). -/
def State.store (s : State) (addr : Byte) (v : Byte) : State := { s with mem := s.mem.write addr.toNat v }

/-! ### Registers -/

/-- `R[i]`, read (R10). -/
def RegFile.get (f : RegFile) (i : Fin 8) : Byte :=
  match i with
  | 0 => f.r0
  | 1 => f.r1
  | 2 => f.r2
  | 3 => f.r3
  | 4 => f.r4
  | 5 => f.r5
  | 6 => f.r6
  | 7 => f.r7

/-- `R[i] <- v` (R10). No register is hardwired (R18). -/
def RegFile.set (f : RegFile) (i : Fin 8) (v : Byte) : RegFile :=
  match i with
  | 0 => { f with r0 := v }
  | 1 => { f with r1 := v }
  | 2 => { f with r2 := v }
  | 3 => { f with r3 := v }
  | 4 => { f with r4 := v }
  | 5 => { f with r5 := v }
  | 6 => { f with r6 := v }
  | 7 => { f with r7 := v }

/-- `R[i]`, read. -/
def State.reg (s : State) (i : Fin 8) : Byte := s.regs.get i

/-- `R[i] <- v`. -/
def State.setReg (s : State) (i : Fin 8) (v : Byte) : State := { s with regs := s.regs.set i v }

/-- `SP`, another name for `R[7]` (R10, R17). -/
def State.sp (s : State) : Byte := s.reg Config.spIndex

/-! ### The stack pointer -/

/-- The address a push writes: `wrap8(SP - 1)` (R46, R103). -/
def State.pushSlot (s : State) : Byte := wrap8Int ((s.sp.toNat : Int) - 1)

/-- A push's first act: `SP <- wrap8(SP - 1)` (R103). -/
def State.decSp (s : State) : State := s.setReg Config.spIndex s.pushSlot

/-- A pop's last act: `SP <- wrap8(SP + 1)` (R103). -/
def State.incSp (s : State) : State := s.setReg Config.spIndex (wrap8 (s.sp.toNat + 1))

/-! ### Program counter and output stream -/

/-- The sequencer's advance `pc <- pc + 1 + n` past an instruction with `n` operand bytes; the sum is not wrapped
(R75). -/
def State.advance (s : State) (n : Nat) : State := { s with pc := s.pc + 1 + n }

/-- `pc <- target`, a full 8-bit address (R106). -/
def State.jumpTo (s : State) (target : Byte) : State := { s with pc := target.toNat }

/-- `emit(ev)` (R12, R34). -/
def State.emit (s : State) (ev : Event) : State := { s with out := s.out ++ [ev] }

/-! ### Taking an error -/

/-- `raise E(info)` (R11, R119): the error status is set, the running flag cleared and nothing else written; `pc` keeps
the address of the instruction that raised (R121). The argument is always the state BEFORE the instruction, so whatever
the instruction would have written is not written (R120). There is no handler and no return from an error (R122): only
reset leaves the Halted state. -/
def State.raise (s : State) (e : MachineError) : State := { s with err := some e, running := false }

/-- An instruction that raises: the error is a next state of the machine. -/
def State.fail (s : State) (e : MachineError) : Result := .next (s.raise e)

/-- The code of an error status (R29, R113). -/
def errorCode : Option MachineError → Nat
  | none => 0
  | some (.invalidOpcode _ _) => 1
  | some (.divisionByZero _) => 2
  | some (.outOfBounds _ _ _) => 3

/-- The `pc` field of an error record (R29). -/
def MachineError.pc : MachineError → Nat
  | .invalidOpcode pc _ => pc
  | .divisionByZero pc => pc
  | .outOfBounds _ _ pc => pc

end Sys2Proof.Machine
end

