-- ==== Sys2Proof/Machine/Boot.lean ====
section
/-! DEFINITION. Reset and loading as one act before the first step (spec 20_memory.md R54, 70_reset_and_hazards.md R132
to R135): the parameters ENTRY_PC and IMAGE of 00_scope.md R7. -/

namespace Sys2Proof.Machine

/-- The state the core starts from: reset, the image at address 0 upward, `pc` at the entry address. An image of more
than 256 bytes is refused (R54, 92_eei_decisions.md D15). -/
def launch (entry : Byte) (image : List Byte) : Result :=
  if image.length > Config.memSize then .refused .imageTooLong
  else .next { State.reset with mem := State.reset.mem.place 0 image, pc := entry.toNat }

end Sys2Proof.Machine
end

