-- ==== Sys2Proof/Syntax.lean ====
section
/-! DEFINITION. The 24 instructions (spec 00_scope.md R3, 30_encoding.md R61, R63) and their kinds. -/

namespace Sys2Proof

/-- An instruction with its operand bytes, as the instruction's own bytes give them (R61, R62): `a` is `op_a`, the
byte at `pc+1`, and `b` is `op_b`, the byte at `pc+2`. Operands are raw bytes, because "any byte value is accepted as
an operand" (R66) and an index of 8 or more is an error only when it is used (R16). -/
inductive Instr where
  | hlt
  | ldi (a imm : Byte)
  | st (a b : Byte)
  | prn (a : Byte)
  /-- `a` is fetched and not used; the register printed is named by the byte AFTER the instruction (R101). -/
  | pra (a : Byte)
  | push (a : Byte)
  | pop (a : Byte)
  | jmp (a : Byte)
  | jeq (a : Byte)
  | jne (a : Byte)
  | call (a : Byte)
  | ret
  | add (a b : Byte)
  | sub (a b : Byte)
  | mul (a b : Byte)
  | div (a b : Byte)
  | mod (a b : Byte)
  | and (a b : Byte)
  | or (a b : Byte)
  | xor (a b : Byte)
  | not (a : Byte)
  | shl (a b : Byte)
  | shr (a b : Byte)
  | cmp (a b : Byte)
  deriving DecidableEq, Repr

/-- What an opcode byte selects: the instruction without its operands (the document's "kind", R63). -/
inductive Kind where
  | hlt | ldi | st | prn | pra | push | pop | jmp | jeq | jne | call | ret
  | add | sub | mul | div | mod | and | or | xor | not | shl | shr | cmp
  deriving DecidableEq, Repr

/-- The kind of an instruction. -/
def Instr.kind : Instr → Kind
  | .hlt => .hlt
  | .ldi _ _ => .ldi
  | .st _ _ => .st
  | .prn _ => .prn
  | .pra _ => .pra
  | .push _ => .push
  | .pop _ => .pop
  | .jmp _ => .jmp
  | .jeq _ => .jeq
  | .jne _ => .jne
  | .call _ => .call
  | .ret => .ret
  | .add _ _ => .add
  | .sub _ _ => .sub
  | .mul _ _ => .mul
  | .div _ _ => .div
  | .mod _ _ => .mod
  | .and _ _ => .and
  | .or _ _ => .or
  | .xor _ _ => .xor
  | .not _ => .not
  | .shl _ _ => .shl
  | .shr _ _ => .shr
  | .cmp _ _ => .cmp

end Sys2Proof
end

