-- ==== Sys2Proof/WellFormed.lean ====
section
/-! DEFINITION. When an instruction names only registers that exist (spec 10_state.md R16, 30_encoding.md R61). -/

namespace Sys2Proof

/-- An operand byte is a register index 0 to 7 (R16). -/
def isRegIndex (a : Byte) : Bool := decide (a.toNat < 8)

/-- Every operand byte the instruction declares as a register index is 0 to 7 (R61: "A register index must be 0 to 7
when it is used"). LDI's second operand is an immediate, PRA's declared operand is not used. This is a check of the
assembler's kind (R68 writes registers R0 to R7): the decoder accepts, and the machine runs, ill-formed instructions
too (R66), and raises the error of R117 when a bad index is used. -/
def Instr.wellFormed : Instr → Bool
  | .hlt => true
  | .ldi a _ => isRegIndex a
  | .st a b => isRegIndex a && isRegIndex b
  | .prn a => isRegIndex a
  | .pra _ => true
  | .push a => isRegIndex a
  | .pop a => isRegIndex a
  | .jmp a => isRegIndex a
  | .jeq a => isRegIndex a
  | .jne a => isRegIndex a
  | .call a => isRegIndex a
  | .ret => true
  | .add a b => isRegIndex a && isRegIndex b
  | .sub a b => isRegIndex a && isRegIndex b
  | .mul a b => isRegIndex a && isRegIndex b
  | .div a b => isRegIndex a && isRegIndex b
  | .mod a b => isRegIndex a && isRegIndex b
  | .and a b => isRegIndex a && isRegIndex b
  | .or a b => isRegIndex a && isRegIndex b
  | .xor a b => isRegIndex a && isRegIndex b
  | .not a => isRegIndex a
  | .shl a b => isRegIndex a && isRegIndex b
  | .shr a b => isRegIndex a && isRegIndex b
  | .cmp a b => isRegIndex a && isRegIndex b

end Sys2Proof
end

