-- ==== Sys2Proof/Decode.lean ====
section
/-! DEFINITION. The decoder ROM, the decoder and the encoder (spec 30_encoding.md R55 to R67), over the parameter
OPCODE_MAP (00_scope.md R7c); the default map is `opcodeByte`. -/

namespace Sys2Proof

/-! ### The fields of an opcode byte -/

/-- `operand_count = ir >> 6` (R57). -/
def operandCount (ir : Byte) : Nat := (ir >>> 6).toNat

/-- `ir[5]`, the ALU class (R59). The decoder does not dispatch on it. -/
def aluClass (ir : Byte) : Bool := ir.getLsbD 5

/-- `sets_pc_directly = ir[4]` (R58). -/
def setsPcDirectly (ir : Byte) : Bool := ir.getLsbD 4

/-- `ir[3:0]`, the identifier among instructions with the same other bits (R56, R60). The decoder does not use it by
itself. -/
def opcodeIdentifier (ir : Byte) : Nat := (ir &&& 0x0F).toNat

/-! ### The decoder ROM -/

/-- An assignment of byte values to the 24 instructions: the parameter OPCODE_MAP (R7c). -/
abbrev OpcodeMap := Kind → Byte

/-- The default OPCODE_MAP: the byte column of R63. PRESUMED (log entry 1): the spec supplies these values from general
knowledge, not from its source (92_eei_decisions.md D2). -/
def opcodeByte : OpcodeMap
  | .hlt => 0x01
  | .ldi => 0x82
  | .st => 0x84
  | .prn => 0x47
  | .pra => 0x48
  | .push => 0x45
  | .pop => 0x46
  | .jmp => 0x54
  | .jeq => 0x55
  | .jne => 0x56
  | .call => 0x50
  | .ret => 0x11
  | .add => 0xA0
  | .sub => 0xA1
  | .mul => 0xA2
  | .div => 0xA3
  | .mod => 0xA4
  | .and => 0xA8
  | .or => 0xAA
  | .xor => 0xAB
  | .not => 0x69
  | .shl => 0xAC
  | .shr => 0xAD
  | .cmp => 0xA7

/-- The 24 entries of the ROM, in the order of R63. -/
def Kind.all : List Kind :=
  [.hlt, .ldi, .st, .prn, .pra, .push, .pop, .jmp, .jeq, .jne, .call, .ret] ++
  [.add, .sub, .mul, .div, .mod, .and, .or, .xor, .not, .shl, .shr, .cmp]

/-- How many operand bytes the instruction's signature declares (R64 (a), the format column of R55). -/
def Kind.arity : Kind → Nat
  | .hlt => 0
  | .ldi => 2
  | .st => 2
  | .prn => 1
  | .pra => 1
  | .push => 1
  | .pop => 1
  | .jmp => 1
  | .jeq => 1
  | .jne => 1
  | .call => 1
  | .ret => 0
  | .add => 2
  | .sub => 2
  | .mul => 2
  | .div => 2
  | .mod => 2
  | .and => 2
  | .or => 2
  | .xor => 2
  | .not => 1
  | .shl => 2
  | .shr => 2
  | .cmp => 2

/-- The instructions that compute the next `pc` themselves (R58, R64 (b)); HLT, whose bit 4 is not constrained, is
not among them. -/
def Kind.isTransfer : Kind → Bool
  | .jmp | .jeq | .jne | .call | .ret => true
  | .hlt | .ldi | .st | .prn | .pra | .push | .pop => false
  | .add | .sub | .mul | .div | .mod | .and | .or | .xor | .not | .shl | .shr | .cmp => false

/-- The twelve ALU operations (R64 (c)). -/
def Kind.isAlu : Kind → Bool
  | .add | .sub | .mul | .div | .mod | .and | .or | .xor | .not | .shl | .shr | .cmp => true
  | .hlt | .ldi | .st | .prn | .pra | .push | .pop => false
  | .jmp | .jeq | .jne | .call | .ret => false

/-- Structural conformance, "binding on any OPCODE_MAP" (R64): (a) bits 7:6 count the operand bytes, (b) bit 4 marks
the control transfers (HLT unconstrained), (c) bit 5 marks the ALU operations, (d) the 24 values are distinct. -/
def OpcodeMap.Conforms (rom : OpcodeMap) : Prop :=
  (∀ k, operandCount (rom k) = k.arity) ∧
  (∀ k, k ≠ .hlt → setsPcDirectly (rom k) = k.isTransfer) ∧
  (∀ k, aluClass (rom k) = k.isAlu) ∧
  (∀ k l, rom k = rom l → k = l)

/-- `ROM[ir]`: the entry whose byte is `ir`, or none for Invalid (R63, R65). -/
def lookupRom (rom : OpcodeMap) (ir : Byte) : Option Kind :=
  Kind.all.find? fun k => rom k == ir

/-! ### Decoding -/

/-- Why the decoder gives no instruction. -/
inductive DecodeError where
  /-- The first byte is not one of the 24 entries (R65). -/
  | invalidOpcode (ir : Byte)
  /-- The bytes end before the instruction does; `got` is how many there were. -/
  | truncated (got : Nat)
  deriving DecidableEq, Repr

/-- The instruction of a kind and its operand bytes (R61); bytes the kind does not declare are dropped. -/
def Kind.instr (k : Kind) (a b : Byte) : Instr :=
  match k with
  | .hlt => .hlt
  | .ldi => .ldi a b
  | .st => .st a b
  | .prn => .prn a
  | .pra => .pra a
  | .push => .push a
  | .pop => .pop a
  | .jmp => .jmp a
  | .jeq => .jeq a
  | .jne => .jne a
  | .call => .call a
  | .ret => .ret
  | .add => .add a b
  | .sub => .sub a b
  | .mul => .mul a b
  | .div => .div a b
  | .mod => .mod a b
  | .and => .and a b
  | .or => .or a b
  | .xor => .xor a b
  | .not => .not a
  | .shl => .shl a b
  | .shr => .shr a b
  | .cmp => .cmp a b

/-- Reads one instruction from the front of a byte list and gives it with the bytes left over. Dispatch is on the
whole first byte (R59, R63); the length is `1 + ir[7:6]` (R67); an Invalid first byte is reported before a missing
operand (R118). -/
def decodeWith (rom : OpcodeMap) : List Byte → Except DecodeError (Instr × List Byte)
  | [] => .error (.truncated 0)
  | ir :: rest =>
    match lookupRom rom ir with
    | none => .error (.invalidOpcode ir)
    | some k =>
      if rest.length < operandCount ir then .error (.truncated (1 + rest.length))
      else .ok (k.instr (rest.getD 0 0) (rest.getD 1 0), rest.drop (operandCount ir))

/-- The decoder under the default OPCODE_MAP. -/
def decode (bytes : List Byte) : Except DecodeError (Instr × List Byte) :=
  decodeWith opcodeByte bytes

/-! ### Encoding -/

/-- The operand bytes of an instruction, in the order they are stored (R61, R68). -/
def Instr.operands : Instr → List Byte
  | .hlt => []
  | .ldi a imm => [a, imm]
  | .st a b => [a, b]
  | .prn a => [a]
  | .pra a => [a]
  | .push a => [a]
  | .pop a => [a]
  | .jmp a => [a]
  | .jeq a => [a]
  | .jne a => [a]
  | .call a => [a]
  | .ret => []
  | .add a b => [a, b]
  | .sub a b => [a, b]
  | .mul a b => [a, b]
  | .div a b => [a, b]
  | .mod a b => [a, b]
  | .and a b => [a, b]
  | .or a b => [a, b]
  | .xor a b => [a, b]
  | .not a => [a]
  | .shl a b => [a, b]
  | .shr a b => [a, b]
  | .cmp a b => [a, b]

/-- The bytes of an instruction at increasing addresses: opcode, `op_a`, `op_b` (R41, R55). -/
def encodeWith (rom : OpcodeMap) (i : Instr) : List Byte := rom i.kind :: i.operands

/-- The encoder under the default OPCODE_MAP. -/
def encode (i : Instr) : List Byte := encodeWith opcodeByte i

/-! ### The opcode table's words -/

/-- The bytes of a table word in the order the hardware stores them: the first byte is bits 7..0, the next bits 15..8,
and so on; bits from `nbits` up are 0. Three bytes, the longest instruction. -/
def tableBytes (nbits w : Nat) : List Byte :=
  let v := w % 2 ^ nbits
  [wrap8 v, wrap8 (v / 256), wrap8 (v / 65536)]

/-- The instruction the decoder reads from a table word. -/
def decodeTableWord (nbits w : Nat) : Option Instr :=
  match decode (tableBytes nbits w) with
  | .ok (i, _) => some i
  | .error _ => none

end Sys2Proof
end

