-- ==== Sys2Proof/Machine/Flags.lean ====
section
/-! DEFINITION. The one flag computation of the machine, that of CMP (spec 40_alu.md R94), and the flags' exclusion
(10_state.md R26). -/

namespace Sys2Proof.Machine

/-- The flags after comparing two unsigned values: E if equal, L if the first is less, G if it is greater (R94). -/
def compareFlags (x y : Byte) : Flags where
  l := decide (x.toNat < y.toNat)
  g := decide (x.toNat > y.toNat)
  e := decide (x.toNat = y.toNat)

/-- How many of the three flags are 1. -/
def Flags.count (f : Flags) : Nat := f.l.toNat + f.g.toNat + f.e.toNat

/-- "At most one flag bit is set at any time" (R26). -/
def Flags.atMostOne (f : Flags) : Bool := decide (f.count ≤ 1)

end Sys2Proof.Machine
end

