-- ==== Sys2Proof/Machine/Operands.lean ====
section
/-! DEFINITION. The operand forms (spec 30_encoding.md R61): register indices checked when they are used (10_state.md
R16), and the byte after the instruction that PRA reads. -/

namespace Sys2Proof.Machine

/-- The register an operand byte names: indices 0 to 7 select a register, others none (R16). -/
def regIndex (a : Byte) : Option (Fin 8) :=
  if h : a.toNat < 8 then some ⟨a.toNat, h⟩ else none

/-- The operand byte that names a register (R61, R68). -/
def regByte (r : Fin 8) : Byte := BitVec.ofNat 8 r.val

/-- `check a < 8`, then go on with the register; an index of 8 or more raises `OutOfBoundsAccess(Register, a)` and
nothing is written (R16, R117). -/
def usingReg (a : Byte) (s : State) (go : Fin 8 → Result) : Result :=
  match regIndex a with
  | some r => go r
  | none => s.fail (.outOfBounds .register a.toNat s.pc)

/-- `check op_a < 8; check op_b < 8`, in that order (R82, R118). -/
def usingRegs (a b : Byte) (s : State) (go : Fin 8 → Fin 8 → Result) : Result :=
  usingReg a s fun r => usingReg b s fun q => go r q

/-- The byte at `pc+2`, which PRA reads although it is not part of the instruction; past 255 it raises
`OutOfBoundsAccess(Memory, pc+2)` (R73, R101). -/
def usingNextByte (s : State) (go : Byte → Result) : Result :=
  match s.memRead (s.pc + 2) with
  | .ok b => go b
  | .error e => s.fail e

end Sys2Proof.Machine
end

