-- ==== Sys2Proof/Machine/Alu.lean ====
section
/-! DEFINITION. The ALU: its twelve operations on values, and the instructions (spec 40_alu.md). Results are computed
on naturals or integers without bound and then reduced with `wrap8` (R79). -/

namespace Sys2Proof.Machine

/-! ### The operations on values -/

/-- Sum modulo 256 (R83). -/
def aluAdd (x y : Byte) : Byte := wrap8 (x.toNat + y.toNat)

/-- Difference modulo 256 (R84). -/
def aluSub (x y : Byte) : Byte := wrap8Int ((x.toNat : Int) - (y.toNat : Int))

/-- Product modulo 256 (R85). -/
def aluMul (x y : Byte) : Byte := wrap8 (x.toNat * y.toNat)

/-- `floor(x / y)` for a non-zero `y` (R86). -/
def aluDiv (x y : Byte) : Byte := wrap8 (x.toNat / y.toNat)

/-- `x - y * floor(x / y)` for a non-zero `y` (R87). -/
def aluMod (x y : Byte) : Byte := wrap8 (x.toNat - y.toNat * (x.toNat / y.toNat))

/-- Bitwise AND (R88). -/
def aluAnd (x y : Byte) : Byte := x &&& y

/-- Bitwise OR (R89). -/
def aluOr (x y : Byte) : Byte := x ||| y

/-- Bitwise exclusive OR (R90). -/
def aluXor (x y : Byte) : Byte := x ^^^ y

/-- The 8-bit complement `255 - x` (R91). -/
def aluNot (x : Byte) : Byte := wrap8 (255 - x.toNat)

/-- `wrap8(x * 2^y)`; the count is the whole value of `y` (R92). -/
def aluShl (x y : Byte) : Byte := wrap8 (x.toNat * 2 ^ y.toNat)

/-- `floor(x / 2^y)`; the count is the whole value of `y` (R93). -/
def aluShr (x y : Byte) : Byte := wrap8 (x.toNat / 2 ^ y.toNat)

/-! ### The shapes of the instructions -/

/-- A binary operation: both indices checked, both operands read, the destination `R[op_a]` written, `pc <- pc + 3`
(R80, R82). -/
def aluBinary (f : Byte → Byte → Byte) (a b : Byte) (s : State) : Result :=
  usingRegs a b s fun r q => .next ((s.setReg r (f (s.reg r) (s.reg q))).advance 2)

/-- A binary operation that raises `DivisionByZero(pc)` on a zero divisor, after the index checks (R82, R115, R118). -/
def aluDivision (f : Byte → Byte → Byte) (a b : Byte) (s : State) : Result :=
  usingRegs a b s fun r q =>
    if s.reg q = 0 then s.fail (.divisionByZero s.pc)
    else .next ((s.setReg r (f (s.reg r) (s.reg q))).advance 2)

/-! ### The instructions -/

/-- ADD (R83). -/
def execAdd (a b : Byte) (s : State) : Result := aluBinary aluAdd a b s

/-- SUB (R84). -/
def execSub (a b : Byte) (s : State) : Result := aluBinary aluSub a b s

/-- MUL (R85). -/
def execMul (a b : Byte) (s : State) : Result := aluBinary aluMul a b s

/-- DIV (R86). -/
def execDiv (a b : Byte) (s : State) : Result := aluDivision aluDiv a b s

/-- MOD (R87). -/
def execMod (a b : Byte) (s : State) : Result := aluDivision aluMod a b s

/-- AND (R88). -/
def execAnd (a b : Byte) (s : State) : Result := aluBinary aluAnd a b s

/-- OR (R89). -/
def execOr (a b : Byte) (s : State) : Result := aluBinary aluOr a b s

/-- XOR (R90). -/
def execXor (a b : Byte) (s : State) : Result := aluBinary aluXor a b s

/-- NOT, one operand, `pc <- pc + 2` (R91, 90_conflicts.md C5). -/
def execNot (a : Byte) (s : State) : Result :=
  usingReg a s fun r => .next ((s.setReg r (aluNot (s.reg r))).advance 1)

/-- SHL (R92). -/
def execShl (a b : Byte) (s : State) : Result := aluBinary aluShl a b s

/-- SHR (R93). -/
def execShr (a b : Byte) (s : State) : Result := aluBinary aluShr a b s

/-- CMP: writes the three flags and no register (R94). -/
def execCmp (a b : Byte) (s : State) : Result :=
  usingRegs a b s fun r q => .next (({ s with flags := compareFlags (s.reg r) (s.reg q) } : State).advance 2)

end Sys2Proof.Machine
end

