-- ==== Sys2Proof/Machine/Control.lean ====
section
/-! DEFINITION. Control transfer: JMP, JEQ, JNE, CALL and RET (spec 44_control_transfer.md). Each writes `pc` itself in
every case that completes (R106). -/

namespace Sys2Proof.Machine

/-- `check op_a < 8; pc <- R[op_a]`: the taken jump. -/
def jumpReg (a : Byte) (s : State) : Result :=
  usingReg a s fun r => .next (s.jumpTo (s.reg r))

/-- `pc <- pc + 2`: the jump not taken, whose operand is not checked (R106, R108, R109). -/
def fallThrough (s : State) : Result := .next { s with pc := s.pc + 2 }

/-- JMP (R107). -/
def execJmp (a : Byte) (s : State) : Result := jumpReg a s

/-- JEQ: taken when `FL.E = 1` (R108). -/
def execJeq (a : Byte) (s : State) : Result := if s.flags.e then jumpReg a s else fallThrough s

/-- JNE: taken when `FL.E = 0` (R109). -/
def execJne (a : Byte) (s : State) : Result := if s.flags.e then fallThrough s else jumpReg a s

/-- CALL: checks the register, then the return address `pc + 2`, pushes it and jumps; the target is read after the
decrement, so CALL R7 jumps to the new SP (R110, 92_eei_decisions.md D6, D27). -/
def execCall (a : Byte) (s : State) : Result :=
  usingReg a s fun r =>
    let ret := s.pc + 2
    if ret > 255 then s.fail (.outOfBounds .memory ret s.pc)
    else
      let d := s.decSp
      .next ((d.store d.sp (wrap8 ret)).jumpTo (d.reg r))

/-- RET: `t <- MemRead(R[7], 1); R[7] <- wrap8(R[7] + 1); pc <- t` (R111). -/
def execRet (s : State) : Result := .next (s.incSp.jumpTo (s.load s.sp))

end Sys2Proof.Machine
end

