-- ==== Sys2Proof/Machine/RegisterOutput.lean ====
section
/-! DEFINITION. Register load, register copy and output (spec 42_register_and_output.md). -/

namespace Sys2Proof.Machine

/-- LDI: `check op_a < 8; R[op_a] <- op_b` (R98). -/
def execLdi (a imm : Byte) (s : State) : Result :=
  usingReg a s fun r => .next ((s.setReg r imm).advance 2)

/-- ST, a register copy and no memory store: `R[op_a] <- R[op_b]` (R99, 90_conflicts.md C4). -/
def execSt (a b : Byte) (s : State) : Result :=
  usingRegs a b s fun r q => .next ((s.setReg r (s.reg q)).advance 2)

/-- PRN: `emit(Dec(R[op_a]))` (R100). -/
def execPrn (a : Byte) (s : State) : Result :=
  usingReg a s fun r => .next ((s.emit (.dec (s.reg r))).advance 1)

/-- PRA: emits the character whose code point is `R[op_b]`, with `op_b` the byte at `pc+2`; `op_a` is not used, and the
length is 2 (R101, 90_conflicts.md C3). -/
def execPra (_a : Byte) (s : State) : Result :=
  usingNextByte s fun b => usingReg b s fun r => .next ((s.emit (.char (s.reg r))).advance 1)

end Sys2Proof.Machine
end

