-- ==== Sys2Proof/Machine/Stack.lean ====
section
/-! DEFINITION. The stack family: PUSH and POP (spec 43_stack.md). -/

namespace Sys2Proof.Machine

/-- PUSH: `R[7] <- wrap8(R[7] - 1); MemWrite(R[7], 1, R[op_a])` (R104). The pushed register is read after the
decrement, so PUSH R7 stores the new SP (92_eei_decisions.md D27). -/
def execPush (a : Byte) (s : State) : Result :=
  usingReg a s fun r =>
    let d := s.decSp
    .next ((d.store d.sp (d.reg r)).advance 1)

/-- POP: `v <- MemRead(R[7], 1); R[op_a] <- v; R[7] <- wrap8(R[7] + 1)` (R105). The increment reads SP after the write,
so POP R7 ends with `wrap8(v + 1)` (92_eei_decisions.md D27). -/
def execPop (a : Byte) (s : State) : Result :=
  usingReg a s fun r => .next (((s.setReg r (s.load s.sp)).incSp).advance 1)

end Sys2Proof.Machine
end

