-- ==== Sys2Proof/Machine/System.lean ====
section
/-! DEFINITION. The system family: HLT (spec 41_system.md). -/

namespace Sys2Proof.Machine

/-- HLT: `running <- 0; pc <- 0`, and no advance follows (R76, R96). -/
def execHlt (s : State) : Result := .next { s with running := false, pc := 0 }

end Sys2Proof.Machine
end

