-- ==== Sys2Proof/Machine/Cycle.lean ====
section
/-! DEFINITION. The fetch-decode-execute cycle (spec 30_encoding.md R71 to R78) over the parameter OPCODE_MAP. -/

namespace Sys2Proof.Machine

/-- Up to `n` bytes from `addr` upward, as many as lie in memory. -/
def State.bytesFrom (s : State) (addr : Nat) : Nat → List Byte
  | 0 => []
  | n + 1 =>
    match s.memRead addr with
    | .ok v => v :: s.bytesFrom (addr + 1) n
    | .error _ => []

/-- The eager fetch of `memory[pc]`, `memory[pc+1]`, `memory[pc+2]` (R73); a byte past 255 is missing, and that is an
error only if the instruction needs it. -/
def fetchWindow (s : State) : List Byte := s.bytesFrom s.pc Config.maxInstrBytes

/-- Stages 1 to 3 of R71: fetch, decode, operand fetch, with the errors of each in the order of R118. When `n` bytes are
there and one more is needed, the missing byte's address is `pc + n`. (PRA's extra byte at `pc+2` is read by its own
meaning, as R101 writes it.) -/
def fetchDecode (rom : OpcodeMap) (s : State) : Except MachineError Instr :=
  match decodeWith rom (fetchWindow s) with
  | .ok (i, _) => .ok i
  | .error (.invalidOpcode ir) => .error (.invalidOpcode s.pc ir)
  | .error (.truncated got) => .error (.outOfBounds .memory (s.pc + got) s.pc)

/-- One step under an opcode map (R71): defined only while the machine runs (R78); an error of any stage ends the step
as `raise` says (R11). -/
def cycle (rom : OpcodeMap) (s : State) : Result :=
  if s.running then
    match fetchDecode rom s with
    | .ok i => exec i s
    | .error e => s.fail e
  else .fault .halted

/-- The state with the bytes of a table word at `pc` upward, and running without an error, which is what the next fetch
needs. -/
def State.placeWord (s : State) (nbits w : Nat) : State :=
  { s with mem := s.mem.place s.pc (tableBytes nbits w), running := true, err := none }

end Sys2Proof.Machine
end

