-- ==== Sys2Proof/Machine/Step.lean ====
section
/-! DEFINITION. The step of the machine under the default OPCODE_MAP, and the placing of one instruction where it is
fetched. -/

namespace Sys2Proof.Machine

/-- One whole instruction (spec 30_encoding.md R71), with the opcode bytes of R63. -/
def step (s : State) : Host.Outcome State Fault Refusal := cycle opcodeByte s

/-- The state with a table word stored where the next instruction is fetched (log entry 9). -/
def State.withFetchWord (s : State) (nbits w : Nat) : State := s.placeWord nbits w

end Sys2Proof.Machine
end

