-- ==== Sys2Proof/Safety.lean ====
section
/-! DEFINITION. The vocabulary of the claims: the invariant of the machine, how a run ends, and what an instruction
leaves unchanged. -/

namespace Sys2Proof.Machine

/-- What every state the machine reaches from a launch meets: the memory is canonical (R36), `pc` is 0 to 256 (R21), at
most one flag is 1 (R26), a recorded error means the machine is halted at the instruction that raised it (R119, R121),
and a halt without an error has `pc = 0` (R96). -/
structure State.Inv (s : State) : Prop where
  memory : s.mem.wf = true
  pcRange : s.pc ≤ 256
  oneFlag : s.flags.atMostOne = true
  errorHalts : ∀ e, s.err = some e → s.running = false ∧ e.pc = s.pc
  haltedAtZero : s.running = false → s.err = none → s.pc = 0

/-- The run ended normally (R131): halted, no error, `pc = 0`. -/
def State.EndedNormally (s : State) : Prop := s.running = false ∧ s.err = none ∧ s.pc = 0

/-- The run ended with the error `e` (R131). -/
def State.EndedWith (s : State) (e : MachineError) : Prop := s.running = false ∧ s.err = some e

/-- A safe step: the machine goes on or halts normally, and no error is recorded. -/
def SafeStep (s : State) : Prop := ∃ t, step s = .next t ∧ t.err = none

/-- Every register outside `ws` reads as before. -/
def RegsKeptBut (ws : List (Fin 8)) (s t : State) : Prop := ∀ x, x ∉ ws → t.reg x = s.reg x

/-- Every byte of memory outside the addresses `as` reads as before. -/
def MemoryKeptBut (as : List Nat) (s t : State) : Prop := ∀ addr, addr ∉ as → t.mem.read addr = s.mem.read addr

/-- The running flag and the error status are as before. -/
def StatusKept (s t : State) : Prop := t.running = s.running ∧ t.err = s.err

/-- The frame of an instruction that writes the registers `ws`, the memory bytes `as`, `pc`, and nothing else. -/
def OnlyWrites (ws : List (Fin 8)) (as : List Nat) (s t : State) : Prop :=
  RegsKeptBut ws s t ∧ MemoryKeptBut as s t ∧ t.flags = s.flags ∧ t.out = s.out ∧ StatusKept s t

/-- The registers an instruction may write (the last column of R19). -/
def mayWrite : Instr → List (Fin 8)
  | .hlt => []
  | .ldi a _ => (regIndex a).toList
  | .st a _ => (regIndex a).toList
  | .prn _ => []
  | .pra _ => []
  | .push _ => [Config.spIndex]
  | .pop a => Config.spIndex :: (regIndex a).toList
  | .jmp _ => []
  | .jeq _ => []
  | .jne _ => []
  | .call _ => [Config.spIndex]
  | .ret => [Config.spIndex]
  | .add a _ => (regIndex a).toList
  | .sub a _ => (regIndex a).toList
  | .mul a _ => (regIndex a).toList
  | .div a _ => (regIndex a).toList
  | .mod a _ => (regIndex a).toList
  | .and a _ => (regIndex a).toList
  | .or a _ => (regIndex a).toList
  | .xor a _ => (regIndex a).toList
  | .not a => (regIndex a).toList
  | .shl a _ => (regIndex a).toList
  | .shr a _ => (regIndex a).toList
  | .cmp _ _ => []

/-- The forms whose first use of a register index is their one register operand `a` (`imm` is LDI's immediate). -/
def oneRegisterForms (a imm : Byte) : List Instr :=
  [.ldi a imm, .prn a, .push a, .pop a, .not a, .jmp a, .call a]

/-- The forms with two register operands, `a` checked before `b` (R82, R99). -/
def twoRegisterForms (a b : Byte) : List Instr :=
  [.st a b, .add a b, .sub a b, .mul a b, .div a b, .mod a b] ++
  [.and a b, .or a b, .xor a b, .shl a b, .shr a b, .cmp a b]

/-- The instruction's bytes lie in memory from `pc` upward, all below 256. -/
def InstructionAt (rom : OpcodeMap) (i : Instr) (s : State) : Prop :=
  s.pc + (encodeWith rom i).length ≤ 256 ∧
  ∀ j (h : j < (encodeWith rom i).length), s.mem.read (s.pc + j) = (encodeWith rom i)[j]

end Sys2Proof.Machine
end

