-- ==== Sys2Proof/Certificates/Slice0/Obligations.lean ====
section
/-! DEFINITION. The statements for the provers. Each docstring names the rule of spec/ the statement formalises, or the
sections it rests on and, where a clause rests on a decision of the spec or a choice of the model, the decision (D<n> of
92_eei_decisions.md) and the log entry. In an error's next state the record is written out: `running` cleared, `err`
set, everything else as before (R11, R119). -/

open Sys2Proof Sys2Proof.Machine

/-! ### Reset and loading -/

/-- R20 and R40: R0 to R6 are 0 and R7 is 0xF4 at reset, every cell is 0, and a launch keeps the registers and gives
each cell its image byte, or 0 where the image does not reach. -/
def Obligations.ResetAndImageContents : Prop :=
  (∀ r, State.reset.reg r = if r = 7 then 0xF4 else 0) ∧
  (∀ addr, State.reset.mem.read addr = 0) ∧
  ∀ (entry : Byte) (image : List Byte), image.length ≤ 256 →
    ∃ t, launch entry image = .next t ∧
      (∀ r, t.reg r = State.reset.reg r) ∧
      (∀ addr, t.mem.read addr = image.getD addr 0)

/-- Rules R23, R54, R133 (decisions D14, D15; log entries 3, 4): a launch starts at the entry address, running, with
clear flags, no error and no output, in a state of the invariant; an image of more than 256 bytes is refused. -/
def Obligations.LaunchStateOrRefusal : Prop :=
  ∀ (entry : Byte) (image : List Byte),
    (image.length ≤ 256 → ∃ t, launch entry image = .next t ∧ t.Inv ∧ t.pc = entry.toNat ∧
      t.flags = ⟨false, false, false⟩ ∧ t.running = true ∧ t.err = none ∧ t.out = []) ∧
    (256 < image.length → launch entry image = .refused .imageTooLong)

/-- The reset state meets the invariant of `StepKeepsMachineInvariant`. -/
def Obligations.ResetMeetsMachineInvariant : Prop := State.reset.Inv

/-! ### Whole-machine rules -/

/-- Whatever the OPCODE_MAP, as long as it conforms (R64), a step from a state of the invariant gives a state of the
invariant: memory canonical (R36), `pc` 0 to 256 (R21, D4), at most one flag (R26), an error recorded only in a halted
machine at the failing instruction (R119, R121, D9), a clean halt at `pc = 0` (R96). `step` is the same with the default
map. -/
def Obligations.StepKeepsMachineInvariant : Prop :=
  (∀ rom : OpcodeMap, rom.Conforms → ∀ s t, s.Inv → cycle rom s = .next t → t.Inv) ∧
  ∀ s t, s.Inv → step s = .next t → t.Inv

/-- Section 30_encoding.md 5 (rule R78: the machine has no next state while `running = 0`). That `step` answers the fault
`halted` there, and not another stop, is the model's choice (log entry 7, DESIGN CHOICE). -/
def Obligations.NoStepWhileHalted : Prop :=
  ∀ s, s.running = false → step s = .fault .halted

/-- Sections 30_encoding.md 5 and 60_exceptions.md 3: every step of a running machine gives a next state, whatever the
opcode map, the memory and the registers; the machine is never stuck while it runs and nothing is refused. -/
def Obligations.RunningMachineAlwaysSteps : Prop :=
  ∀ (rom : OpcodeMap) s, s.running = true → ∃ t, cycle rom s = .next t

/-- R28 and R131 with decisions D9 and D28: a step of a running machine without an error clears `running` in two ways
only: an HLT, which ends the run normally, or an error, which records the failing instruction's address and writes
nothing else (R120); a step that records an error clears `running`. -/
def Obligations.StepHaltsOnlyByHltOrPreciseError : Prop :=
  ∀ s t, s.err = none → step s = .next t →
    (t.running = false →
      (s.mem.read s.pc = opcodeByte .hlt ∧ t.EndedNormally ∧ t = { s with running := false, pc := 0 }) ∨
      (∃ e, e.pc = s.pc ∧ t.EndedWith e ∧ t = { s with running := false, err := some e })) ∧
    (t.err ≠ none → t.running = false)

/-- R25 and R81: every instruction but CMP leaves the flags as they are; CMP overwrites all three, whatever they were;
the conditional jumps read E and nothing reads L or G: with other values of L and G (and of E, for an instruction that
is no conditional jump) the same instruction does the same. -/
def Obligations.OnlyCmpWritesFlagsOnlyBranchesReadE : Prop :=
  (∀ i s t, i.kind ≠ .cmp → exec i s = .next t →
    t.flags = s.flags ∧
    (∀ l g, exec i { s with flags := ⟨l, g, s.flags.e⟩ } = .next { t with flags := ⟨l, g, s.flags.e⟩ }) ∧
    (i.kind ≠ .jeq → i.kind ≠ .jne → ∀ f, exec i { s with flags := f } = .next { t with flags := f })) ∧
  ∀ (r q : Fin 8) s f,
    exec (.cmp (regByte r) (regByte q)) { s with flags := f } = exec (.cmp (regByte r) (regByte q)) s

/-- R26: the flags are clear at reset, at most one is 1 before and after every step, and after a CMP exactly one. -/
def Obligations.FlagsMutuallyExclusive : Prop :=
  State.reset.flags = ⟨false, false, false⟩ ∧
  (∀ s t, s.flags.count ≤ 1 → step s = .next t → t.flags.count ≤ 1) ∧
  ∀ (r q : Fin 8) s, ∃ t, exec (.cmp (regByte r) (regByte q)) s = .next t ∧ t.flags.count = 1

/-- R102: a PRN or PRA that completes appends one event at the end of the stream and any other instruction that
completes none; an instruction that raises emits nothing; the stream is never read, so with another stream before it
the same instruction does the same and appends the same events. -/
def Obligations.OutputStreamIsAppendOnly : Prop :=
  ∀ i s t, s.err = none → exec i s = .next t →
    (t.err = none → ∃ evs, t.out = s.out ++ evs ∧
      evs.length = if i.kind = .prn ∨ i.kind = .pra then 1 else 0) ∧
    (t.err ≠ none → t.out = s.out) ∧
    ∀ o, exec i { s with out := o } = .next { t with out := o ++ t.out.drop s.out.length }

/-- Table of R19 (an inference of the spec): an instruction changes only the registers of the table's last column. -/
def Obligations.RegistersChangeOnlyByTable : Prop :=
  ∀ i s t, exec i s = .next t → RegsKeptBut (mayWrite i) s t

/-- R39 (an inference of the spec): memory changes only under PUSH and CALL, and only the byte at SP - 1 modulo 256. -/
def Obligations.MemoryChangesOnlyAtPushSlot : Prop :=
  ∀ i s t, exec i s = .next t →
    (i.kind ≠ .push → i.kind ≠ .call → t.mem = s.mem) ∧ MemoryKeptBut [s.pushSlot.toNat] s t

/-! ### Memory -/

/-- R37 and R38: an access past 255 is the error with the offending address; a write inside stores its byte, a read
gives the byte stored, and a write touches no other byte and no other part of the state. -/
def Obligations.MemReadMemWriteBounds : Prop :=
  ∀ s addr v,
    (addr > 255 → s.memRead addr = .error (.outOfBounds .memory addr s.pc) ∧
      s.memWrite addr v = .error (.outOfBounds .memory addr s.pc)) ∧
    (addr ≤ 255 → s.memRead addr = .ok (s.mem.read addr) ∧
      ∃ t, s.memWrite addr v = .ok t ∧ t = { s with mem := t.mem } ∧ t.memRead addr = .ok v ∧
        MemoryKeptBut [addr] s t)

/-- The model's memory representation (log entry 5) over R36: canonical memories that read alike at the 256 addresses
are the same data. -/
def Obligations.CanonicalMemoryIsDeterminedByReads : Prop :=
  ∀ m m' : Memory, m.wf = true → m'.wf = true → (∀ addr, addr < 256 → m.read addr = m'.read addr) → m = m'

/-! ### Encoding and decoding -/

/-- Sections 30_encoding.md 1 to 3: for every instruction, every operand byte and every conforming OPCODE_MAP, decoding
the encoding gives the instruction back and leaves the bytes after it. -/
def Obligations.DecodeOfEncodeIsIdentity : Prop :=
  ∀ rom : OpcodeMap, rom.Conforms → ∀ i rest, decodeWith rom (encodeWith rom i ++ rest) = .ok (i, rest)

/-- R67: the length of an instruction is `1 + ir[7:6]` of its first byte alone, and the bytes decoded are exactly the
instruction's own: nothing before or between them. -/
def Obligations.FirstByteGivesLength : Prop :=
  ∀ rom : OpcodeMap, rom.Conforms → ∀ ir bytes i rest, decodeWith rom (ir :: bytes) = .ok (i, rest) →
    ir :: bytes = encodeWith rom i ++ rest ∧ (encodeWith rom i).length = 1 + (ir >>> 6).toNat

/-- Rules R57, R58, R64 and R75: `operand_count = ir >> 6` and `sets_pc_directly` is bit 4, for every byte. Under every
conforming map the count is the number of operand bytes of each instruction; the bit is 1, HLT aside, exactly for CALL,
RET, JMP, JEQ and JNE (HLT's is 0 in the default map, whose bytes are decision D2, log entry 1); and the sequencer uses
them: an instruction that completes with the bit 0, other than HLT, ends at `pc + 1 + operand_count`. -/
def Obligations.OpcodeBitsDriveSequencer : Prop :=
  (∀ ir, operandCount ir = (ir >>> 6).toNat ∧ setsPcDirectly ir = (((ir >>> 4) &&& 1) == 1)) ∧
  setsPcDirectly (opcodeByte .hlt) = false ∧
  ∀ rom : OpcodeMap, rom.Conforms → ∀ i : Instr,
    operandCount (rom i.kind) = i.operands.length ∧
    (i ≠ .hlt → (setsPcDirectly (rom i.kind) = true ↔
      i.kind = .call ∨ i.kind = .ret ∨ i.kind = .jmp ∨ i.kind = .jeq ∨ i.kind = .jne)) ∧
    ∀ s t, s.err = none → exec i s = .next t → t.err = none →
      setsPcDirectly (rom i.kind) = false → i ≠ .hlt → t.pc = s.pc + 1 + operandCount (rom i.kind)

/-- The byte column of R63 (decision D2; log entry 1), one word of each family and length, decoded under the default
map. -/
def Obligations.RomWordsDecode : Prop :=
  decode [0x01] = .ok (.hlt, []) ∧
  decode [0x82, 0x00, 0x08] = .ok (.ldi 0 8, []) ∧
  decode [0x84, 0x03, 0x01] = .ok (.st 3 1, []) ∧
  decode [0x48, 0x05, 0x01] = .ok (.pra 5, [0x01]) ∧
  decode [0x45, 0x07] = .ok (.push 7, []) ∧
  decode [0x50, 0x01] = .ok (.call 1, []) ∧
  decode [0x11, 0x47] = .ok (.ret, [0x47]) ∧
  decode [0xA0, 0x02, 0x05] = .ok (.add 2 5, []) ∧
  decode [0x69, 0x02, 0x00] = .ok (.not 2, [0x00]) ∧
  decode [0xC0, 0x00, 0x00] = .error (.invalidOpcode 0xC0) ∧
  decode [0x82, 0x00] = .error (.truncated 2)

/-! ### The cycle -/

/-- Section 30_encoding.md 5: when the bytes at `pc` decode to `i`, the step is `exec i`; the cycle adds nothing, since
`exec` also advances `pc`. -/
def Obligations.StepRunsDecodedInstruction : Prop :=
  ∀ s i rest, s.running = true → decode (fetchWindow s) = .ok (i, rest) → step s = exec i s

/-- Sections 30_encoding.md 3 and 5: under any conforming OPCODE_MAP, a running machine with the bytes of `i` in memory
at `pc` runs `i`, whatever stands around them. -/
def Obligations.CycleRunsInstructionInMemory : Prop :=
  ∀ rom : OpcodeMap, rom.Conforms → ∀ i s, s.running = true → InstructionAt rom i s → cycle rom s = exec i s

/-- Sections 30_encoding.md 3 and 60_exceptions.md 1 to 3 (rules R65, R114, R119 to R121): a fetched byte that is no
entry of the map in force raises InvalidOpcode with the address and the byte (decision D21). That it does so even where
operand bytes would be missing is decision D8 (log entry 13); that `pc` and everything else but `running` and `err` stay
as they were is decision D9 (log entry 6). -/
def Obligations.InvalidOpcodeHalts : Prop :=
  ∀ (rom : OpcodeMap) s, s.running = true → s.pc ≤ 255 → (∀ k, rom k ≠ s.mem.read s.pc) →
    cycle rom s =
      .next { s with running := false, err := some (.invalidOpcode s.pc (s.mem.read s.pc)) }

/-- Sections 30_encoding.md 5 and 60_exceptions.md 1 to 3 (rules R72, R73, R116, R119 to R121): an opcode fetch past 255
raises OutOfBoundsAccess at `pc`, and an instruction whose declared operand bytes do not all lie below 256 raises it at
256 (decisions D4, D7; log entry 2). That `pc` and everything else but `running` and `err` stay as they were is decision
D9 (log entry 6). -/
def Obligations.FetchPastMemoryHalts : Prop :=
  (∀ (rom : OpcodeMap) s, s.running = true → 255 < s.pc →
    cycle rom s = .next { s with running := false, err := some (.outOfBounds .memory s.pc s.pc) }) ∧
  ∀ rom : OpcodeMap, rom.Conforms → ∀ k s, s.running = true → s.pc ≤ 255 → s.mem.read s.pc = rom k →
    255 < s.pc + operandCount (rom k) →
    cycle rom s = .next { s with running := false, err := some (.outOfBounds .memory 256 s.pc) }

/-- The model's placing of one instruction (log entry 9): the next step runs the instruction the decoder reads from the
word. -/
def Obligations.PlacedWordIsFetched : Prop :=
  ∀ (s : State) nbits w i, s.pc ≤ 253 → decodeTableWord nbits w = some i →
    step (s.withFetchWord nbits w) = exec i (s.withFetchWord nbits w)

/-! ### Errors of instructions -/

/-- Sections 10_state.md 2 and 60_exceptions.md 1 to 3 (rules R16, R117 to R121): a used register index of 8 or more
raises OutOfBoundsAccess(Register, index), `op_a` before `op_b` and both before a zero divisor (decision D8, log entry
13); an index that is not used is not checked (decision D12, log entry 12); PRA is checked through the byte at `pc + 2`
(decision D7, log entry 8). That nothing but `running` and `err` changes, `pc` included, is decision D9 (log entry 6). -/
def Obligations.BadRegisterIndexHalts : Prop :=
  ∀ a b s,
    (8 ≤ a.toNat → ∀ i ∈ oneRegisterForms a b ++ twoRegisterForms a b,
      exec i s = .next { s with running := false, err := some (.outOfBounds .register a.toNat s.pc) }) ∧
    (a.toNat < 8 → 8 ≤ b.toNat → ∀ i ∈ twoRegisterForms a b,
      exec i s = .next { s with running := false, err := some (.outOfBounds .register b.toNat s.pc) }) ∧
    (8 ≤ a.toNat → s.flags.e = true →
      exec (.jeq a) s = .next { s with running := false, err := some (.outOfBounds .register a.toNat s.pc) }) ∧
    (8 ≤ a.toNat → s.flags.e = false →
      exec (.jne a) s = .next { s with running := false, err := some (.outOfBounds .register a.toNat s.pc) }) ∧
    (s.pc + 2 ≤ 255 → 8 ≤ (s.mem.read (s.pc + 2)).toNat →
      exec (.pra a) s = .next { s with
        running := false, err := some (.outOfBounds .register (s.mem.read (s.pc + 2)).toNat s.pc) })

/-- Sections 40_alu.md 2 and 60_exceptions.md 1 and 3 (rules R86, R87, R115, R119 to R121): DIV and MOD by a register
that holds 0 raise DivisionByZero, also when it is the destination itself, and the destination is not changed. The record
is decision D10; that `pc` and everything else but `running` and `err` stay as they were is decision D9 (log entry 6). -/
def Obligations.DivisionByZeroHalts : Prop :=
  ∀ (r q : Fin 8) s, s.reg q = 0 → ∀ i ∈ [Instr.div (regByte r) (regByte q), .mod (regByte r) (regByte q)],
    exec i s = .next { s with running := false, err := some (.divisionByZero s.pc) }

/-- The execute stage alone (`exec`), sections 42_register_and_output.md, 44_control_transfer.md and 60_exceptions.md 1 and
3: a CALL whose return address exceeds 255 (decision D6, log entry 13), and a PRA whose next byte lies past 255 (decision
D7, log entry 8), raise OutOfBoundsAccess(Memory, pc + 2). Only `pc = 254` is reached by a step of the machine: at 255 the
operand fetch has already failed and the step records 256 (`FetchPastMemoryHalts`), so the index 257 there is only that of
`exec` applied by itself (log entry 13). That nothing but `running` and `err` changes is decision D9 (log entry 6). -/
def Obligations.CallAndPraAtMemoryEndHalt : Prop :=
  ∀ (r : Fin 8) (a : Byte) s, 253 < s.pc →
    exec (.call (regByte r)) s =
      .next { s with running := false, err := some (.outOfBounds .memory (s.pc + 2) s.pc) } ∧
    exec (.pra a) s =
      .next { s with running := false, err := some (.outOfBounds .memory (s.pc + 2) s.pc) }

/-- Sections 10_state.md 2 and 60_exceptions.md 1: a well-formed instruction in memory at `pc`, other than PRA, DIV, MOD
and CALL (which have errors of their own), raises nothing, whatever the state. -/
def Obligations.WellFormedInstructionStepsSafely : Prop :=
  ∀ i s, s.running = true → s.err = none → InstructionAt opcodeByte i s → i.wellFormed = true →
    i.kind ≠ .pra → i.kind ≠ .div → i.kind ≠ .mod → i.kind ≠ .call → SafeStep s

/-! ### Results of instructions -/

/-- R96 (decision D22): HLT clears `running`, sets `pc` to 0 and changes nothing else. -/
def Obligations.HltStopsAtZero : Prop :=
  ∀ s, exec .hlt s = .next { s with running := false, pc := 0 }

/-- Section 42_register_and_output.md (rules R98, R99): LDI writes its immediate and ST copies a register; neither
touches anything else but `pc`. -/
def Obligations.LdiAndStWriteOneRegister : Prop :=
  ∀ (r q : Fin 8) (imm : Byte) s,
    (∃ t, exec (.ldi (regByte r) imm) s = .next t ∧ t.reg r = imm ∧ OnlyWrites [r] [] s t ∧ t.pc = s.pc + 3) ∧
    ∃ t, exec (.st (regByte r) (regByte q)) s = .next t ∧ t.reg r = s.reg q ∧ OnlyWrites [r] [] s t ∧ t.pc = s.pc + 3

/-- Section 42_register_and_output.md (rules R100, R101; PRA's operand is decision D7): PRN emits its register in
decimal, PRA the character in the register named by the byte at `pc + 2`, whatever its own operand byte; each is two
bytes long and changes nothing else. -/
def Obligations.PrnAndPraEmitOneEvent : Prop :=
  ∀ (r : Fin 8) (a : Byte) s,
    exec (.prn (regByte r)) s = .next { s with out := s.out ++ [.dec (s.reg r)], pc := s.pc + 2 } ∧
    (s.pc + 2 ≤ 255 → s.mem.read (s.pc + 2) = regByte r →
      exec (.pra a) s = .next { s with out := s.out ++ [.char (s.reg r)], pc := s.pc + 2 })

/-- R104 (decisions D5, D27): PUSH decrements SP modulo 256 and stores the register, read after the decrement, at the
new SP; only that byte and SP change. -/
def Obligations.PushStoresAtDecrementedSp : Prop :=
  ∀ (r : Fin 8) s, ∃ t, exec (.push (regByte r)) s = .next t ∧
    (t.sp.toNat : Int) = ((s.sp.toNat : Int) - 1) % 256 ∧
    t.sp = s.pushSlot ∧
    t.mem.read s.pushSlot.toNat = (if r = 7 then t.sp else s.reg r) ∧
    OnlyWrites [7] [s.pushSlot.toNat] s t ∧ t.pc = s.pc + 2

/-- R105 (decisions D5, D27): POP loads the register from the byte at SP and increments SP modulo 256; POP R7 ends with
the popped value plus one. -/
def Obligations.PopLoadsThenIncrementsSp : Prop :=
  ∀ (r : Fin 8) s, ∃ t, exec (.pop (regByte r)) s = .next t ∧
    (r ≠ 7 → t.reg r = s.mem.read s.sp.toNat) ∧
    t.sp.toNat = ((if r = 7 then s.mem.read s.sp.toNat else s.sp).toNat + 1) % 256 ∧
    OnlyWrites [r, 7] [] s t ∧ t.pc = s.pc + 2

/-- Section 44_control_transfer.md (rule R107): JMP sets `pc` to the register and changes nothing else. -/
def Obligations.JmpSetsPc : Prop :=
  ∀ (r : Fin 8) s, exec (.jmp (regByte r)) s = .next { s with pc := (s.reg r).toNat }

/-- R108 and R109 (decisions D12, D25): JEQ jumps exactly when E is 1 and JNE exactly when it is 0; otherwise `pc`
advances by 2, and then any operand byte will do. -/
def Obligations.ConditionalJumpsFollowE : Prop :=
  ∀ (r : Fin 8) (a : Byte) s,
    (s.flags.e = true →
      exec (.jeq (regByte r)) s = .next { s with pc := (s.reg r).toNat } ∧
      exec (.jne a) s = .next { s with pc := s.pc + 2 }) ∧
    (s.flags.e = false →
      exec (.jne (regByte r)) s = .next { s with pc := (s.reg r).toNat } ∧
      exec (.jeq a) s = .next { s with pc := s.pc + 2 })

/-- R110 (decisions D5, D6, D27): below address 254, CALL pushes `pc + 2` and jumps to the register, read after the
decrement of SP. -/
def Obligations.CallPushesReturnAddress : Prop :=
  ∀ (r : Fin 8) s, s.pc ≤ 253 → ∃ t, exec (.call (regByte r)) s = .next t ∧
    (t.sp.toNat : Int) = ((s.sp.toNat : Int) - 1) % 256 ∧
    t.sp = s.pushSlot ∧
    (t.mem.read s.pushSlot.toNat).toNat = s.pc + 2 ∧
    OnlyWrites [7] [s.pushSlot.toNat] s t ∧
    t.pc = (if r = 7 then t.sp else s.reg r).toNat

/-- Section 44_control_transfer.md (rule R111): RET sets `pc` to the byte at SP and increments SP modulo 256. -/
def Obligations.RetPopsPc : Prop :=
  ∀ s, ∃ t, exec .ret s = .next t ∧ t.pc = (s.mem.read s.sp.toNat).toNat ∧
    t.sp.toNat = (s.sp.toNat + 1) % 256 ∧ OnlyWrites [7] [] s t

/-- Section 40_alu.md 2 (rules R83 to R85, R79): the low 8 bits of the exact sum, difference and product, in the
destination alone. -/
def Obligations.AddSubMulWrapModulo256 : Prop :=
  ∀ (r q : Fin 8) s,
    (∃ t, exec (.add (regByte r) (regByte q)) s = .next t ∧
      (t.reg r).toNat = ((s.reg r).toNat + (s.reg q).toNat) % 256 ∧ OnlyWrites [r] [] s t ∧ t.pc = s.pc + 3) ∧
    (∃ t, exec (.sub (regByte r) (regByte q)) s = .next t ∧
      ((t.reg r).toNat : Int) = (((s.reg r).toNat : Int) - ((s.reg q).toNat : Int)) % 256 ∧
      OnlyWrites [r] [] s t ∧ t.pc = s.pc + 3) ∧
    ∃ t, exec (.mul (regByte r) (regByte q)) s = .next t ∧
      (t.reg r).toNat = ((s.reg r).toNat * (s.reg q).toNat) % 256 ∧ OnlyWrites [r] [] s t ∧ t.pc = s.pc + 3

/-- Section 40_alu.md 2 (rules R86, R87; decision D11): with a non-zero divisor, the quotient rounded down and the
remainder, which is below the divisor. -/
def Obligations.DivModQuotientRemainder : Prop :=
  ∀ (r q : Fin 8) s, s.reg q ≠ 0 →
    (∃ t, exec (.div (regByte r) (regByte q)) s = .next t ∧
      (t.reg r).toNat = (s.reg r).toNat / (s.reg q).toNat ∧ OnlyWrites [r] [] s t ∧ t.pc = s.pc + 3) ∧
    ∃ t, exec (.mod (regByte r) (regByte q)) s = .next t ∧
      (t.reg r).toNat = (s.reg r).toNat - (s.reg q).toNat * ((s.reg r).toNat / (s.reg q).toNat) ∧
      (t.reg r).toNat < (s.reg q).toNat ∧ OnlyWrites [r] [] s t ∧ t.pc = s.pc + 3

/-- Section 40_alu.md 3 (rules R88 to R91): AND, OR and XOR bit by bit, NOT as `255 - R[op_a]`. -/
def Obligations.LogicalOperationsBitwise : Prop :=
  ∀ (r q : Fin 8) s,
    (∃ t, exec (.and (regByte r) (regByte q)) s = .next t ∧
      (∀ j, (t.reg r).getLsbD j = ((s.reg r).getLsbD j && (s.reg q).getLsbD j)) ∧
      OnlyWrites [r] [] s t ∧ t.pc = s.pc + 3) ∧
    (∃ t, exec (.or (regByte r) (regByte q)) s = .next t ∧
      (∀ j, (t.reg r).getLsbD j = ((s.reg r).getLsbD j || (s.reg q).getLsbD j)) ∧
      OnlyWrites [r] [] s t ∧ t.pc = s.pc + 3) ∧
    (∃ t, exec (.xor (regByte r) (regByte q)) s = .next t ∧
      (∀ j, (t.reg r).getLsbD j = ((s.reg r).getLsbD j ^^ (s.reg q).getLsbD j)) ∧
      OnlyWrites [r] [] s t ∧ t.pc = s.pc + 3) ∧
    ∃ t, exec (.not (regByte r)) s = .next t ∧
      (t.reg r).toNat = 255 - (s.reg r).toNat ∧ OnlyWrites [r] [] s t ∧ t.pc = s.pc + 2

/-- Section 40_alu.md 4 (rules R92, R93): the count is the whole value of the second register; bits shifted out are
lost, zeros come in, and a count of 8 or more gives 0. -/
def Obligations.ShiftsByWholeCount : Prop :=
  ∀ (r q : Fin 8) s,
    (∃ t, exec (.shl (regByte r) (regByte q)) s = .next t ∧
      (t.reg r).toNat = ((s.reg r).toNat * 2 ^ (s.reg q).toNat) % 256 ∧
      (8 ≤ (s.reg q).toNat → t.reg r = 0) ∧ OnlyWrites [r] [] s t ∧ t.pc = s.pc + 3) ∧
    ∃ t, exec (.shr (regByte r) (regByte q)) s = .next t ∧
      (t.reg r).toNat = (s.reg r).toNat / 2 ^ (s.reg q).toNat ∧
      (8 ≤ (s.reg q).toNat → t.reg r = 0) ∧ OnlyWrites [r] [] s t ∧ t.pc = s.pc + 3

/-- Section 40_alu.md 5 (rule R94): CMP sets E, L or G by the unsigned order of the two registers and changes nothing
else. -/
def Obligations.CmpSetsUnsignedOrder : Prop :=
  ∀ (r q : Fin 8) s, ∃ t, exec (.cmp (regByte r) (regByte q)) s = .next t ∧
    (t.flags.e = true ↔ (s.reg r).toNat = (s.reg q).toNat) ∧
    (t.flags.l = true ↔ (s.reg r).toNat < (s.reg q).toNat) ∧
    (t.flags.g = true ↔ (s.reg r).toNat > (s.reg q).toNat) ∧
    t = { s with flags := t.flags, pc := s.pc + 3 }

/-- R80: for each binary ALU operation there is ONE function of two values, which depends on both, such that for all
registers, the same one twice included, and all states the operation that completes leaves in the destination the
function of the values both registers had before it, and changes nothing else but `pc`; so an operation that read its
source after the write would fail for equal registers. NOT likewise with one function of its one register. CMP changes
the flags and `pc` only. -/
def Obligations.AluReadsBothOperandsFirst : Prop :=
  (∀ k ∈ [Kind.add, .sub, .mul, .div, .mod, .and, .or, .xor, .shl, .shr],
    ∃ f : Byte → Byte → Byte,
      (∃ x x' y, f x y ≠ f x' y) ∧ (∃ x y y', f x y ≠ f x y') ∧
      ∀ (r q : Fin 8) s t, s.err = none → exec (k.instr (regByte r) (regByte q)) s = .next t → t.err = none →
        t.reg r = f (s.reg r) (s.reg q) ∧ OnlyWrites [r] [] s t) ∧
  (∃ f : Byte → Byte, (∃ x x', f x ≠ f x') ∧
    ∀ (r : Fin 8) s t, exec (.not (regByte r)) s = .next t → t.reg r = f (s.reg r) ∧ OnlyWrites [r] [] s t) ∧
  ∀ (r q : Fin 8) s t, exec (.cmp (regByte r) (regByte q)) s = .next t → t = { s with flags := t.flags, pc := t.pc }

/-! ### Laws across instructions -/

/-- The ALU's definitions on unbounded naturals (rule R79) are the 8-bit vector operations. -/
def Obligations.AluMatchesBitVectorOperations : Prop :=
  ∀ x y : Byte,
    aluAdd x y = x + y ∧ aluSub x y = x - y ∧ aluMul x y = x * y ∧ aluNot x = ~~~x ∧
    aluShl x y = x <<< y.toNat ∧ aluShr x y = x >>> y.toNat ∧
    (y ≠ 0 → aluDiv x y = x / y ∧ aluMod x y = x % y)

/-- Vector S2 and the law of R105: PUSH then POP into the same register, other than R7, restores every register and
leaves the pushed value in memory. -/
def Obligations.PushThenPopRestores : Prop :=
  ∀ (r : Fin 8) s t u, r ≠ 7 → exec (.push (regByte r)) s = .next t → exec (.pop (regByte r)) t = .next u →
    (∀ x, u.reg x = s.reg x) ∧ u.mem.read s.pushSlot.toNat = s.reg r ∧
    MemoryKeptBut [s.pushSlot.toNat] s u ∧ u.pc = s.pc + 4

/-- Vector S3 and the law of R111: after a CALL, whatever the subroutine does, a RET in a state with the SP and the top
of stack that CALL left returns to the address after the CALL and to the SP before it. -/
def Obligations.CallThenRetReturns : Prop :=
  ∀ (r : Fin 8) s t u v, s.pc ≤ 253 → exec (.call (regByte r)) s = .next t →
    u.sp = t.sp → u.mem.read u.sp.toNat = t.mem.read t.sp.toNat → exec .ret u = .next v →
    v.pc = s.pc + 2 ∧ v.sp = s.sp

/-- Vector S4: after a CMP of equal registers JEQ is taken and JNE falls through; of different registers the other way
round. -/
def Obligations.CompareThenBranch : Prop :=
  ∀ (r q x : Fin 8) s t, exec (.cmp (regByte r) (regByte q)) s = .next t →
    (s.reg r = s.reg q →
      exec (.jeq (regByte x)) t = .next { t with pc := (s.reg x).toNat } ∧
      exec (.jne (regByte x)) t = .next { t with pc := s.pc + 5 }) ∧
    (s.reg r ≠ s.reg q →
      exec (.jne (regByte x)) t = .next { t with pc := (s.reg x).toNat } ∧
      exec (.jeq (regByte x)) t = .next { t with pc := s.pc + 5 })
end

