-- ==== Sys2Proof/Laws/Decode.lean ====
section
/-! SUPPORT. The decoder ROM and the fields of an opcode byte (spec 30_encoding.md R56 to R67). -/

namespace Sys2Proof

theorem Kind.mem_all (k : Kind) : k ∈ Kind.all := by cases k <;> decide

/-- A found entry has the byte looked up. -/
theorem lookupRom_some {rom : OpcodeMap} {ir : Byte} {k : Kind} (h : lookupRom rom ir = some k) : rom k = ir := by
  simpa using List.find?_some h

/-- A byte that is no entry is Invalid (R65). -/
theorem lookupRom_none {rom : OpcodeMap} {ir : Byte} : lookupRom rom ir = none ↔ ∀ k, rom k ≠ ir := by
  constructor
  · intro h k hk
    exact absurd hk (by simpa using List.find?_eq_none.mp h k (Kind.mem_all k))
  · intro h
    exact List.find?_eq_none.mpr fun k _ => by simpa using h k

/-- When the entries are distinct, each is found by its byte. -/
theorem lookupRom_self {rom : OpcodeMap} (inj : ∀ k l, rom k = rom l → k = l) (k : Kind) :
    lookupRom rom (rom k) = some k := by
  cases h : lookupRom rom (rom k) with
  | none => exact absurd rfl (lookupRom_none.mp h k)
  | some l => rw [inj l k (lookupRom_some h)]

theorem operandCount_eq (ir : Byte) : operandCount ir = ir.toNat / 64 := by
  simp [operandCount, Nat.shiftRight_eq_div_pow]

/-- An opcode byte is its four fields AA B C DDDD (R56). -/
theorem opcode_fields : ∀ ir : Byte, ir.toNat =
    64 * operandCount ir + 32 * (aluClass ir).toNat + 16 * (setsPcDirectly ir).toNat + opcodeIdentifier ir := by
  decide

/-- Bit 4 of the default opcode bytes marks the control transfers (R58, R64 (b)). -/
theorem setsPcDirectly_opcodeByte (k : Kind) : setsPcDirectly (opcodeByte k) = k.isTransfer := by
  cases k <;> decide

/-- Bit 5 of the default opcode bytes marks the ALU operations (R59, R64 (c)). -/
theorem aluClass_opcodeByte (k : Kind) : aluClass (opcodeByte k) = k.isAlu := by cases k <;> decide

/-- Bits 7:6 of the default opcode bytes count the operand bytes (R57, R64 (a)). -/
theorem operandCount_opcodeByte (k : Kind) : operandCount (opcodeByte k) = k.arity := by cases k <;> decide

/-- The default map satisfies R64 (a) to (d), as the spec says by inspection. -/
theorem opcodeByte_conforms : OpcodeMap.Conforms opcodeByte := by
  refine ⟨operandCount_opcodeByte, fun k _ => setsPcDirectly_opcodeByte k, aluClass_opcodeByte, ?_⟩
  intro k l
  cases k <;> cases l <;> first | (intro _; rfl) | (intro h; exact absurd h (by decide))

/-- The declared operand bytes of an instruction are as many as its kind says (R64 (a)). -/
theorem Instr.operands_length (i : Instr) : i.operands.length = i.kind.arity := by cases i <;> rfl

@[simp] theorem Kind.kind_instr (k : Kind) (a b : Byte) : (k.instr a b).kind = k := by cases k <;> rfl

end Sys2Proof
end

