-- ==== Sys2Proof/Laws/Memory.lean ====
section
/-! SUPPORT. The memory laws: a read after a write, and the canonical form kept by every memory operation (spec
20_memory.md R36 to R40). -/

namespace Sys2Proof.Machine

@[simp] theorem Memory.read_nil (addr : Nat) : Memory.read [] addr = 0 := rfl

theorem Memory.read_erase (m : Memory) (addr x : Nat) :
    (m.erase addr).read x = if x = addr then 0 else m.read x := by
  induction m with
  | nil => simp [Memory.erase]
  | cons c rest ih =>
    obtain ⟨b, v⟩ := c
    by_cases hb : b = addr
    · subst hb
      by_cases hx : x = b
      · simpa [Memory.erase, hx] using ih
      · simpa [Memory.erase, Memory.read, hx, Ne.symm hx] using ih
    · by_cases hx : b = x
      · subst hx; simp [Memory.erase, Memory.read, hb]
      · simpa [Memory.erase, Memory.read, hb, hx] using ih

/-- Inserting at an address the memory does not list. -/
theorem Memory.read_insert (m : Memory) (addr x : Nat) (v : Byte) (h : ∀ c ∈ m, c.1 ≠ addr) :
    (m.insert addr v).read x = if x = addr then v else m.read x := by
  induction m with
  | nil => simp [Memory.insert, Memory.read, Memory.unlisted, eq_comm]
  | cons c rest ih =>
    obtain ⟨b, w⟩ := c
    have hb : b ≠ addr := h (b, w) (by simp)
    have ih := ih fun c hc => h c (by simp [hc])
    by_cases hlt : addr < b
    · simp [Memory.insert, Memory.read, hlt, eq_comm]
    · by_cases hx : b = x
      · subst hx; simp [Memory.insert, Memory.read, hlt, hb]
      · simpa [Memory.insert, Memory.read, hlt, hx] using ih

theorem Memory.not_listed_erase (m : Memory) (addr : Nat) : ∀ c ∈ m.erase addr, c.1 ≠ addr := by
  induction m with
  | nil => simp [Memory.erase]
  | cons c rest ih =>
    obtain ⟨b, v⟩ := c
    by_cases hb : b = addr
    · simpa [Memory.erase, hb] using ih
    · simpa [Memory.erase, hb] using ih

/-- Reading after a write, at the address written and at every other. -/
@[simp] theorem Memory.read_write (m : Memory) (addr x : Nat) (v : Byte) :
    (m.write addr v).read x = if x = addr then v else m.read x := by
  unfold Memory.write
  split
  · next h => subst h; exact Memory.read_erase m addr x
  · rw [Memory.read_insert _ _ _ _ (Memory.not_listed_erase m addr), Memory.read_erase]
    by_cases hx : x = addr <;> simp [hx]

/-! ### The canonical form -/

theorem Memory.wfFrom_cons {lo a : Nat} {v : Byte} {rest : Memory} :
    Memory.wfFrom lo ((a, v) :: rest) = true ↔ lo ≤ a ∧ a < 256 ∧ v ≠ 0 ∧ Memory.wfFrom (a + 1) rest = true := by
  simp only [Memory.wfFrom, Bool.and_eq_true, decide_eq_true_eq, bne_iff_ne, and_assoc]
  exact Iff.rfl

theorem Memory.wfFrom_mono {m : Memory} {lo lo' : Nat} (h : lo' ≤ lo) (hm : Memory.wfFrom lo m = true) :
    Memory.wfFrom lo' m = true := by
  cases m with
  | nil => rfl
  | cons c rest =>
    obtain ⟨a, v⟩ := c
    rw [Memory.wfFrom_cons] at hm ⊢
    exact ⟨h.trans hm.1, hm.2⟩

theorem Memory.wfFrom_erase {m : Memory} {lo : Nat} (addr : Nat) (hm : Memory.wfFrom lo m = true) :
    Memory.wfFrom lo (m.erase addr) = true := by
  induction m generalizing lo with
  | nil => rfl
  | cons c rest ih =>
    obtain ⟨a, v⟩ := c
    rw [Memory.wfFrom_cons] at hm
    by_cases ha : a = addr
    · simp only [Memory.erase, ha, if_true]
      exact ih (Memory.wfFrom_mono (by omega) hm.2.2.2)
    · simp only [Memory.erase, ha, if_false]
      exact Memory.wfFrom_cons.mpr ⟨hm.1, hm.2.1, hm.2.2.1, ih hm.2.2.2⟩

theorem Memory.wfFrom_insert {m : Memory} {lo addr : Nat} {v : Byte} (hm : Memory.wfFrom lo m = true)
    (hlo : lo ≤ addr) (haddr : addr < 256) (hv : v ≠ 0) (hn : ∀ c ∈ m, c.1 ≠ addr) :
    Memory.wfFrom lo (m.insert addr v) = true := by
  induction m generalizing lo with
  | nil => exact Memory.wfFrom_cons.mpr ⟨hlo, haddr, hv, rfl⟩
  | cons c rest ih =>
    obtain ⟨a, w⟩ := c
    have ha : a ≠ addr := hn (a, w) (by simp)
    rw [Memory.wfFrom_cons] at hm
    by_cases hlt : addr < a
    · simp only [Memory.insert, hlt, if_true]
      exact Memory.wfFrom_cons.mpr ⟨hlo, haddr, hv, Memory.wfFrom_cons.mpr ⟨by omega, hm.2⟩⟩
    · simp only [Memory.insert, hlt, if_false]
      exact Memory.wfFrom_cons.mpr
        ⟨hm.1, hm.2.1, hm.2.2.1, ih hm.2.2.2 (by omega) fun c hc => hn c (by simp [hc])⟩

/-- A write inside the address space keeps the canonical form. -/
theorem Memory.wf_write {m : Memory} {addr : Nat} (v : Byte) (hm : m.wf = true) (haddr : addr < 256) :
    (m.write addr v).wf = true := by
  unfold Memory.write
  split
  · exact Memory.wfFrom_erase addr hm
  · next hv =>
    exact Memory.wfFrom_insert (Memory.wfFrom_erase addr hm) (Nat.zero_le _) haddr hv
      (Memory.not_listed_erase m addr)

/-- Placing bytes keeps the canonical form. -/
theorem Memory.wf_place {m : Memory} (addr : Nat) (bytes : List Byte) (hm : m.wf = true) :
    (m.place addr bytes).wf = true := by
  induction bytes generalizing m addr with
  | nil => exact hm
  | cons v rest ih =>
    by_cases h : addr < 256
    · simp only [Memory.place, Config.memSize, h, if_true]
      exact ih (addr + 1) (Memory.wf_write v hm h)
    · simpa [Memory.place, Config.memSize, h] using hm

/-- Reading after placing bytes that fit: byte `x - addr` inside, as before outside. -/
theorem Memory.read_place (m : Memory) (addr : Nat) (bytes : List Byte) (x : Nat) (h : addr + bytes.length ≤ 256) :
    (m.place addr bytes).read x =
      if addr ≤ x ∧ x < addr + bytes.length then bytes.getD (x - addr) 0 else m.read x := by
  induction bytes generalizing m addr with
  | nil => simp [Memory.place]
  | cons v rest ih =>
    simp only [List.length_cons] at h ⊢
    have hlt : addr < 256 := by omega
    simp only [Memory.place, Config.memSize, hlt, if_true]
    rw [ih (m.write addr v) (addr + 1) (by omega)]
    by_cases hin : addr + 1 ≤ x ∧ x < addr + 1 + rest.length
    · rw [if_pos hin, if_pos (by omega)]
      obtain ⟨k, hk⟩ : ∃ k, x = addr + 1 + k := ⟨x - (addr + 1), by omega⟩
      subst hk
      have h1 : addr + 1 + k - (addr + 1) = k := by omega
      have h2 : addr + 1 + k - addr = k + 1 := by omega
      rw [h1, h2, List.getD_cons_succ]
    · rw [if_neg hin, Memory.read_write]
      by_cases hx : x = addr
      · subst hx; simp
      · rw [if_neg hx, if_neg (by omega)]

/-! ### Checked access -/

theorem State.memRead_ok {s : State} {addr : Nat} (h : addr ≤ 255) : s.memRead addr = .ok (s.mem.read addr) := by
  simp [State.memRead, Nat.not_lt.mpr h]

/-- An 8-bit address is always inside (R39). -/
theorem State.memRead_byte (s : State) (addr : Byte) : s.memRead addr.toNat = .ok (s.load addr) :=
  State.memRead_ok (by have := addr.isLt; omega)

/-- An 8-bit address is always inside (R39). -/
theorem State.memWrite_byte (s : State) (addr v : Byte) : s.memWrite addr.toNat v = .ok (s.store addr v) := by
  have := addr.isLt
  simp only [State.memWrite, State.store]
  rw [if_neg (by omega)]

end Sys2Proof.Machine
end

