-- ==== Sys2Proof/Laws/State.lean ====
section
/-! SUPPORT. One lemma per field per state update, all by `rfl`, and the reads of registers after updates. -/

namespace Sys2Proof.Machine

variable (s : State)

/-! ### `setReg` -/

@[simp] theorem State.setReg_mem (i : Fin 8) (v : Byte) : (s.setReg i v).mem = s.mem := rfl
@[simp] theorem State.setReg_pc (i : Fin 8) (v : Byte) : (s.setReg i v).pc = s.pc := rfl
@[simp] theorem State.setReg_flags (i : Fin 8) (v : Byte) : (s.setReg i v).flags = s.flags := rfl
@[simp] theorem State.setReg_running (i : Fin 8) (v : Byte) : (s.setReg i v).running = s.running := rfl
@[simp] theorem State.setReg_err (i : Fin 8) (v : Byte) : (s.setReg i v).err = s.err := rfl
@[simp] theorem State.setReg_out (i : Fin 8) (v : Byte) : (s.setReg i v).out = s.out := rfl

/-! ### `advance` -/

@[simp] theorem State.advance_mem (n : Nat) : (s.advance n).mem = s.mem := rfl
@[simp] theorem State.advance_regs (n : Nat) : (s.advance n).regs = s.regs := rfl
@[simp] theorem State.advance_flags (n : Nat) : (s.advance n).flags = s.flags := rfl
@[simp] theorem State.advance_running (n : Nat) : (s.advance n).running = s.running := rfl
@[simp] theorem State.advance_err (n : Nat) : (s.advance n).err = s.err := rfl
@[simp] theorem State.advance_out (n : Nat) : (s.advance n).out = s.out := rfl
@[simp] theorem State.advance_pc (n : Nat) : (s.advance n).pc = s.pc + 1 + n := rfl
@[simp] theorem State.advance_reg (n : Nat) (j : Fin 8) : (s.advance n).reg j = s.reg j := rfl
@[simp] theorem State.advance_sp (n : Nat) : (s.advance n).sp = s.sp := rfl

/-! ### `jumpTo` -/

@[simp] theorem State.jumpTo_mem (v : Byte) : (s.jumpTo v).mem = s.mem := rfl
@[simp] theorem State.jumpTo_regs (v : Byte) : (s.jumpTo v).regs = s.regs := rfl
@[simp] theorem State.jumpTo_flags (v : Byte) : (s.jumpTo v).flags = s.flags := rfl
@[simp] theorem State.jumpTo_running (v : Byte) : (s.jumpTo v).running = s.running := rfl
@[simp] theorem State.jumpTo_err (v : Byte) : (s.jumpTo v).err = s.err := rfl
@[simp] theorem State.jumpTo_out (v : Byte) : (s.jumpTo v).out = s.out := rfl
@[simp] theorem State.jumpTo_pc (v : Byte) : (s.jumpTo v).pc = v.toNat := rfl
@[simp] theorem State.jumpTo_reg (v : Byte) (j : Fin 8) : (s.jumpTo v).reg j = s.reg j := rfl
@[simp] theorem State.jumpTo_sp (v : Byte) : (s.jumpTo v).sp = s.sp := rfl

/-! ### `emit` -/

@[simp] theorem State.emit_mem (ev : Event) : (s.emit ev).mem = s.mem := rfl
@[simp] theorem State.emit_regs (ev : Event) : (s.emit ev).regs = s.regs := rfl
@[simp] theorem State.emit_pc (ev : Event) : (s.emit ev).pc = s.pc := rfl
@[simp] theorem State.emit_flags (ev : Event) : (s.emit ev).flags = s.flags := rfl
@[simp] theorem State.emit_running (ev : Event) : (s.emit ev).running = s.running := rfl
@[simp] theorem State.emit_err (ev : Event) : (s.emit ev).err = s.err := rfl
@[simp] theorem State.emit_out (ev : Event) : (s.emit ev).out = s.out ++ [ev] := rfl
@[simp] theorem State.emit_reg (ev : Event) (j : Fin 8) : (s.emit ev).reg j = s.reg j := rfl
@[simp] theorem State.emit_sp (ev : Event) : (s.emit ev).sp = s.sp := rfl

/-! ### `raise` -/

@[simp] theorem State.raise_mem (e : MachineError) : (s.raise e).mem = s.mem := rfl
@[simp] theorem State.raise_regs (e : MachineError) : (s.raise e).regs = s.regs := rfl
@[simp] theorem State.raise_pc (e : MachineError) : (s.raise e).pc = s.pc := rfl
@[simp] theorem State.raise_flags (e : MachineError) : (s.raise e).flags = s.flags := rfl
@[simp] theorem State.raise_out (e : MachineError) : (s.raise e).out = s.out := rfl
@[simp] theorem State.raise_running (e : MachineError) : (s.raise e).running = false := rfl
@[simp] theorem State.raise_err (e : MachineError) : (s.raise e).err = some e := rfl
@[simp] theorem State.raise_reg (e : MachineError) (j : Fin 8) : (s.raise e).reg j = s.reg j := rfl
@[simp] theorem State.raise_sp (e : MachineError) : (s.raise e).sp = s.sp := rfl

/-! ### `store` -/

@[simp] theorem State.store_regs (addr v : Byte) : (s.store addr v).regs = s.regs := rfl
@[simp] theorem State.store_pc (addr v : Byte) : (s.store addr v).pc = s.pc := rfl
@[simp] theorem State.store_flags (addr v : Byte) : (s.store addr v).flags = s.flags := rfl
@[simp] theorem State.store_running (addr v : Byte) : (s.store addr v).running = s.running := rfl
@[simp] theorem State.store_err (addr v : Byte) : (s.store addr v).err = s.err := rfl
@[simp] theorem State.store_out (addr v : Byte) : (s.store addr v).out = s.out := rfl
@[simp] theorem State.store_mem (addr v : Byte) : (s.store addr v).mem = s.mem.write addr.toNat v := rfl
@[simp] theorem State.store_reg (addr v : Byte) (j : Fin 8) : (s.store addr v).reg j = s.reg j := rfl
@[simp] theorem State.store_sp (addr v : Byte) : (s.store addr v).sp = s.sp := rfl

/-! ### `decSp` -/

@[simp] theorem State.decSp_mem : (s.decSp).mem = s.mem := rfl
@[simp] theorem State.decSp_pc : (s.decSp).pc = s.pc := rfl
@[simp] theorem State.decSp_flags : (s.decSp).flags = s.flags := rfl
@[simp] theorem State.decSp_running : (s.decSp).running = s.running := rfl
@[simp] theorem State.decSp_err : (s.decSp).err = s.err := rfl
@[simp] theorem State.decSp_out : (s.decSp).out = s.out := rfl

/-! ### `incSp` -/

@[simp] theorem State.incSp_mem : (s.incSp).mem = s.mem := rfl
@[simp] theorem State.incSp_pc : (s.incSp).pc = s.pc := rfl
@[simp] theorem State.incSp_flags : (s.incSp).flags = s.flags := rfl
@[simp] theorem State.incSp_running : (s.incSp).running = s.running := rfl
@[simp] theorem State.incSp_err : (s.incSp).err = s.err := rfl
@[simp] theorem State.incSp_out : (s.incSp).out = s.out := rfl

/-! ### Registers -/

theorem RegFile.get_set (f : RegFile) (i j : Fin 8) (v : Byte) :
    (f.set i v).get j = if j = i then v else f.get j := by
  fin_cases i <;> fin_cases j <;> rfl

theorem RegFile.ext_get {f g : RegFile} (h : ∀ i, f.get i = g.get i) : f = g := by
  cases f; cases g
  have h0 := h 0; have h1 := h 1; have h2 := h 2; have h3 := h 3
  have h4 := h 4; have h5 := h 5; have h6 := h 6; have h7 := h 7
  simp only [RegFile.get] at h0 h1 h2 h3 h4 h5 h6 h7
  subst h0 h1 h2 h3 h4 h5 h6 h7
  rfl

@[simp] theorem State.reg_setReg (i j : Fin 8) (v : Byte) :
    (s.setReg i v).reg j = if j = i then v else s.reg j :=
  RegFile.get_set s.regs i j v

theorem State.sp_eq : s.sp = s.reg 7 := rfl

@[simp] theorem State.sp_setReg (i : Fin 8) (v : Byte) :
    (s.setReg i v).sp = if 7 = i then v else s.sp :=
  RegFile.get_set s.regs i 7 v

@[simp] theorem State.decSp_reg (j : Fin 8) :
    s.decSp.reg j = if j = 7 then s.pushSlot else s.reg j :=
  RegFile.get_set s.regs 7 j _

@[simp] theorem State.decSp_sp : s.decSp.sp = s.pushSlot := by
  rw [State.sp_eq, State.decSp_reg, if_pos rfl]

@[simp] theorem State.incSp_reg (j : Fin 8) :
    s.incSp.reg j = if j = 7 then wrap8 (s.sp.toNat + 1) else s.reg j :=
  RegFile.get_set s.regs 7 j _

@[simp] theorem State.incSp_sp : s.incSp.sp = wrap8 (s.sp.toNat + 1) := by
  rw [State.sp_eq, State.incSp_reg, if_pos rfl]

/-! ### Operands -/

/-- Every register is named by its operand byte. -/
@[simp] theorem regIndex_regByte (r : Fin 8) : regIndex (regByte r) = some r := by
  fin_cases r <;> rfl

/-- A byte of 8 or more names no register (R16). -/
theorem regIndex_eq_none {a : Byte} (h : 8 ≤ a.toNat) : regIndex a = none := by
  simp [regIndex, Nat.not_lt.mpr h]

/-- A byte below 8 is the operand byte of a register. -/
theorem eq_regByte_of_lt {a : Byte} (h : a.toNat < 8) : a = regByte ⟨a.toNat, h⟩ := by
  apply BitVec.eq_of_toNat_eq
  simp only [regByte, BitVec.toNat_ofNat]
  omega

/-- The two cases of an operand byte. -/
theorem regByte_or_large (a : Byte) : (∃ r, a = regByte r) ∨ 8 ≤ a.toNat := by
  by_cases h : a.toNat < 8
  · exact .inl ⟨_, eq_regByte_of_lt h⟩
  · exact .inr (Nat.le_of_not_lt h)

variable {s}

@[simp] theorem usingReg_regByte (r : Fin 8) (go : Fin 8 → Result) : usingReg (regByte r) s go = go r := by
  simp [usingReg]

theorem usingReg_large {a : Byte} (h : 8 ≤ a.toNat) (go : Fin 8 → Result) :
    usingReg a s go = s.fail (.outOfBounds .register a.toNat s.pc) := by
  simp [usingReg, regIndex_eq_none h]

@[simp] theorem usingRegs_regByte (r q : Fin 8) (go : Fin 8 → Fin 8 → Result) :
    usingRegs (regByte r) (regByte q) s go = go r q := by
  simp [usingRegs]

/-- All that `usingReg` can do: go on with the register the byte names, or raise at the byte. -/
theorem usingReg_cases (a : Byte) (s : State) (go : Fin 8 → Result) :
    (∃ r, regIndex a = some r ∧ usingReg a s go = go r) ∨
    (8 ≤ a.toNat ∧ usingReg a s go = s.fail (.outOfBounds .register a.toNat s.pc)) := by
  obtain ⟨r, rfl⟩ | h := regByte_or_large a
  · exact .inl ⟨r, by simp, by simp⟩
  · exact .inr ⟨h, usingReg_large h go⟩

/-- All that `usingRegs` can do. -/
theorem usingRegs_cases (a b : Byte) (s : State) (go : Fin 8 → Fin 8 → Result) :
    (∃ r q, regIndex a = some r ∧ regIndex b = some q ∧ usingRegs a b s go = go r q) ∨
    (∃ c : Byte, 8 ≤ c.toNat ∧ (c = a ∨ c = b) ∧ usingRegs a b s go = s.fail (.outOfBounds .register c.toNat s.pc)) := by
  obtain ⟨r, hr, h⟩ | ⟨ha, h⟩ := usingReg_cases a s fun r => usingReg b s fun q => go r q
  · obtain ⟨q, hq, h'⟩ | ⟨hb, h'⟩ := usingReg_cases b s fun q => go r q
    · exact .inl ⟨r, q, hr, hq, h.trans h'⟩
    · exact .inr ⟨b, hb, .inr rfl, h.trans h'⟩
  · exact .inr ⟨a, ha, .inl rfl, h⟩

/-- All that `usingNextByte` can do: go on with the byte at `pc+2`, or raise past the end of memory. -/
theorem usingNextByte_cases (s : State) (go : Byte → Result) :
    (s.pc + 2 ≤ 255 ∧ usingNextByte s go = go (s.mem.read (s.pc + 2))) ∨
    (255 < s.pc + 2 ∧ usingNextByte s go = s.fail (.outOfBounds .memory (s.pc + 2) s.pc)) := by
  by_cases h : s.pc + 2 > 255
  · exact .inr ⟨h, by simp [usingNextByte, State.memRead, h]⟩
  · exact .inl ⟨by omega, by simp [usingNextByte, State.memRead, h]⟩

end Sys2Proof.Machine
end

