-- ==== Sys2Proof/Laws/Words.lean ====
section
/-! SUPPORT. The reduction modulo 256 (spec 00_scope.md R9). -/

namespace Sys2Proof

@[simp] theorem wrap8_toNat (n : Nat) : (wrap8 n).toNat = n % 256 := by simp [wrap8]

@[simp] theorem wrap8_byte (x : Byte) : wrap8 x.toNat = x := by simp [wrap8]

theorem wrap8_toNat_of_lt {n : Nat} (h : n < 256) : (wrap8 n).toNat = n := by
  rw [wrap8_toNat, Nat.mod_eq_of_lt h]

/-- The integer reduction takes the mathematical remainder. -/
theorem wrap8Int_toNat (n : Int) : ((wrap8Int n).toNat : Int) = n % 256 := by
  have h : (0 : Int) ≤ n % 256 := Int.emod_nonneg n (by decide)
  simp [wrap8Int, BitVec.toNat_ofInt, Int.toNat_of_nonneg h]

end Sys2Proof
end

