-- ==== Sys2Proof/Laws/Exec.lean ====
section
/-! SUPPORT. What an instruction and a step can do, said once: every other proof about all instructions starts from
`exec_cases` and `cycle_cases`. -/

namespace Sys2Proof.Machine

/-- What a completed instruction keeps and what it can write: the running flag and the error status stay, the memory
changes at most at the push slot, the flags change only to a comparison's, and `pc` is a byte or the address after the
instruction. -/
structure Completed (i : Instr) (s t : State) : Prop where
  running : t.running = s.running
  err : t.err = s.err
  mem : t.mem = s.mem ∨ (i.kind = .push ∨ i.kind = .call) ∧ ∃ v, t.mem = s.mem.write s.pushSlot.toNat v
  flags : t.flags = s.flags ∨ i.kind = .cmp ∧ ∃ x y, t.flags = compareFlags x y
  pc : t.pc = s.pc + 1 + i.kind.arity ∨ t.pc ≤ 255

/-- The three ways an instruction ends: it raises at `pc`, it is the halt, or it completes. -/
def Ends (i : Instr) (s : State) (r : Result) : Prop :=
  (∃ e : MachineError, e.pc = s.pc ∧ r = .next (s.raise e)) ∨
  (i = .hlt ∧ r = .next { s with running := false, pc := 0 }) ∨
  (∃ t, r = .next t ∧ Completed i s t)

theorem Ends.raises {i : Instr} {s : State} (e : MachineError) (h : e.pc = s.pc) : Ends i s (s.fail e) :=
  .inl ⟨e, h, rfl⟩

theorem Ends.usingReg {i : Instr} {a : Byte} {s : State} {go : Fin 8 → Result} (h : ∀ r, Ends i s (go r)) :
    Ends i s (usingReg a s go) := by
  obtain ⟨r, -, h'⟩ | ⟨-, h'⟩ := usingReg_cases a s go <;> rw [h']
  · exact h r
  · exact Ends.raises _ rfl

theorem Ends.usingRegs {i : Instr} {a b : Byte} {s : State} {go : Fin 8 → Fin 8 → Result}
    (h : ∀ r q, Ends i s (go r q)) : Ends i s (usingRegs a b s go) :=
  Ends.usingReg fun r => Ends.usingReg fun q => h r q

/-- An instruction that writes one register and advances. -/
theorem Ends.writesReg {i : Instr} {s : State} (r : Fin 8) (v : Byte) (n : Nat) (h : i.kind.arity = n) :
    Ends i s (.next ((s.setReg r v).advance n)) :=
  .inr (.inr ⟨_, rfl, rfl, rfl, .inl rfl, .inl rfl, .inl (by rw [h]; rfl)⟩)

theorem Ends.emits {i : Instr} {s : State} (ev : Event) (h : i.kind.arity = 1) :
    Ends i s (.next ((s.emit ev).advance 1)) :=
  .inr (.inr ⟨_, rfl, rfl, rfl, .inl rfl, .inl rfl, .inl (by rw [h]; rfl)⟩)

theorem Ends.aluBinary {i : Instr} {s : State} (f : Byte → Byte → Byte) (a b : Byte) (h : i.kind.arity = 2) :
    Ends i s (aluBinary f a b s) :=
  Ends.usingRegs fun _ _ => Ends.writesReg _ _ 2 h

theorem Ends.aluDivision {i : Instr} {s : State} (f : Byte → Byte → Byte) (a b : Byte) (h : i.kind.arity = 2) :
    Ends i s (aluDivision f a b s) := by
  refine Ends.usingRegs fun r q => ?_
  by_cases hq : s.reg q = 0
  · rw [if_pos hq]; exact Ends.raises _ rfl
  · rw [if_neg hq]; exact Ends.writesReg _ _ 2 h

theorem Ends.jumpReg {i : Instr} {s : State} (a : Byte) : Ends i s (jumpReg a s) := by
  refine Ends.usingReg fun r => .inr (.inr ⟨_, rfl, rfl, rfl, .inl rfl, .inl rfl, .inr ?_⟩)
  have := (s.reg r).isLt
  simp only [State.jumpTo_pc]
  omega

theorem Ends.fallThrough {i : Instr} {s : State} (h : i.kind.arity = 1) : Ends i s (fallThrough s) :=
  .inr (.inr ⟨_, rfl, rfl, rfl, .inl rfl, .inl rfl, .inl (by rw [h])⟩)

/-- Everything `exec` can answer. -/
theorem exec_cases (i : Instr) (s : State) : Ends i s (exec i s) := by
  cases i with
  | hlt => exact .inr (.inl ⟨rfl, rfl⟩)
  | ldi a imm => exact Ends.usingReg fun r => Ends.writesReg r imm 2 rfl
  | st a b => exact Ends.usingRegs fun r q => Ends.writesReg r _ 2 rfl
  | prn a => exact Ends.usingReg fun r => Ends.emits _ rfl
  | pra a =>
    change Ends _ s (usingNextByte s fun b => usingReg b s fun r => .next ((s.emit (.char (s.reg r))).advance 1))
    obtain ⟨-, h⟩ | ⟨-, h⟩ :=
      usingNextByte_cases s fun b => usingReg b s fun r => .next ((s.emit (.char (s.reg r))).advance 1) <;> rw [h]
    · exact Ends.usingReg fun r => Ends.emits _ rfl
    · exact Ends.raises _ rfl
  | push a =>
    refine Ends.usingReg fun r => .inr (.inr ⟨_, rfl, rfl, rfl, .inr ⟨.inl rfl, s.decSp.reg r, ?_⟩, .inl rfl, .inl rfl⟩)
    simp
  | pop a => exact Ends.usingReg fun r => .inr (.inr ⟨_, rfl, rfl, rfl, .inl rfl, .inl rfl, .inl rfl⟩)
  | jmp a => exact Ends.jumpReg a
  | jeq a =>
    by_cases h : s.flags.e = true
    · simpa only [exec, execJeq, if_pos h] using Ends.jumpReg a
    · simpa only [exec, execJeq, if_neg h] using Ends.fallThrough rfl
  | jne a =>
    by_cases h : s.flags.e = true
    · simpa only [exec, execJne, if_pos h] using Ends.fallThrough rfl
    · simpa only [exec, execJne, if_neg h] using Ends.jumpReg a
  | call a =>
    refine Ends.usingReg fun r => ?_
    dsimp only
    by_cases h : s.pc + 2 > 255
    · rw [if_pos h]; exact Ends.raises _ rfl
    · rw [if_neg h]
      refine .inr (.inr ⟨_, rfl, rfl, rfl, .inr ⟨.inr rfl, wrap8 (s.pc + 2), by simp⟩, .inl rfl, .inr ?_⟩)
      have := (s.decSp.reg r).isLt
      simp only [State.jumpTo_pc]
      omega
  | ret =>
    refine .inr (.inr ⟨_, rfl, rfl, rfl, .inl rfl, .inl rfl, .inr ?_⟩)
    have := (s.load s.sp).isLt
    simp only [State.jumpTo_pc]
    omega
  | add a b => exact Ends.aluBinary _ a b rfl
  | sub a b => exact Ends.aluBinary _ a b rfl
  | mul a b => exact Ends.aluBinary _ a b rfl
  | div a b => exact Ends.aluDivision _ a b rfl
  | mod a b => exact Ends.aluDivision _ a b rfl
  | and a b => exact Ends.aluBinary _ a b rfl
  | or a b => exact Ends.aluBinary _ a b rfl
  | xor a b => exact Ends.aluBinary _ a b rfl
  | not a => exact Ends.usingReg fun r => Ends.writesReg r _ 1 rfl
  | shl a b => exact Ends.aluBinary _ a b rfl
  | shr a b => exact Ends.aluBinary _ a b rfl
  | cmp a b =>
    exact Ends.usingRegs fun r q =>
      .inr (.inr ⟨_, rfl, rfl, rfl, .inl rfl, .inr ⟨rfl, s.reg r, s.reg q, rfl⟩, .inl rfl⟩)

/-! ### The cycle -/

theorem State.bytesFrom_succ (s : State) (addr n : Nat) :
    s.bytesFrom addr (n + 1) =
      if addr ≤ 255 then s.mem.read addr :: s.bytesFrom (addr + 1) n else [] := by
  by_cases h : addr > 255
  · simp [State.bytesFrom, State.memRead, h, Nat.not_le.mpr h]
  · simp [State.bytesFrom, State.memRead, h, Nat.le_of_not_lt h]

/-- The bytes fetched are those in memory, as many of the three as lie below 256. -/
theorem fetchWindow_length (s : State) : (fetchWindow s).length = min 3 (256 - s.pc) := by
  have hw : ∀ n addr, (s.bytesFrom addr n).length = min n (256 - addr) := by
    intro n
    induction n with
    | zero => intro addr; simp [State.bytesFrom]
    | succ n ih =>
      intro addr
      by_cases ha : addr ≤ 255
      · rw [State.bytesFrom_succ, if_pos ha, List.length_cons, ih]; omega
      · rw [State.bytesFrom_succ, if_neg ha, List.length_nil]; omega
  exact hw _ _

theorem fetchWindow_getElem (s : State) (j : Nat) (h : j < (fetchWindow s).length) :
    (fetchWindow s)[j] = s.mem.read (s.pc + j) := by
  have hw : ∀ n addr j (h : j < (s.bytesFrom addr n).length), (s.bytesFrom addr n)[j] = s.mem.read (addr + j) := by
    intro n
    induction n with
    | zero => intro addr j h; simp [State.bytesFrom] at h
    | succ n ih =>
      intro addr j h
      by_cases ha : addr ≤ 255
      · simp only [State.bytesFrom_succ, if_pos ha] at h ⊢
        cases j with
        | zero => rfl
        | succ j =>
          rw [List.getElem_cons_succ, ih (addr + 1) j (by simpa using h)]
          congr 1; omega
      · simp [State.bytesFrom_succ, ha] at h
  exact hw _ _ _ h

/-- Decoding succeeds exactly on a known first byte with all its operand bytes there. -/
theorem decodeWith_ok {rom : OpcodeMap} {bytes rest : List Byte} {i : Instr}
    (h : decodeWith rom bytes = .ok (i, rest)) :
    ∃ tail, bytes = rom i.kind :: tail ∧ operandCount (rom i.kind) ≤ tail.length ∧
      i = i.kind.instr (tail.getD 0 0) (tail.getD 1 0) ∧ rest = tail.drop (operandCount (rom i.kind)) := by
  cases bytes with
  | nil => simp [decodeWith] at h
  | cons ir tail =>
    simp only [decodeWith] at h
    cases hk : lookupRom rom ir with
    | none => simp [hk] at h
    | some k =>
      obtain rfl := lookupRom_some hk
      by_cases hlen : tail.length < operandCount (rom k)
      · simp [hk, hlen] at h
      · simp only [hk, hlen, if_false, Except.ok.injEq, Prod.mk.injEq] at h
        obtain ⟨rfl, rfl⟩ := h
        exact ⟨tail, by simp, by simpa using hlen, by simp, by simp⟩

/-- Everything a step of a running machine can do: raise at `pc` in the fetch, or run an instruction whose opcode byte
is at `pc` and whose operand bytes are in memory. -/
theorem cycle_cases (rom : OpcodeMap) {s : State} (h : s.running = true) :
    (∃ e : MachineError, e.pc = s.pc ∧ cycle rom s = .next (s.raise e)) ∨
    (∃ i, cycle rom s = exec i s ∧ s.mem.read s.pc = rom i.kind ∧ s.pc + 1 + operandCount (rom i.kind) ≤ 256) := by
  simp only [cycle, h, if_true, fetchDecode]
  cases hd : decodeWith rom (fetchWindow s) with
  | error e => cases e <;> exact .inl ⟨_, rfl, rfl⟩
  | ok p =>
    obtain ⟨i, rest⟩ := p
    obtain ⟨tail, hw, hlen, -, -⟩ := decodeWith_ok hd
    have hl := fetchWindow_length s
    rw [hw, List.length_cons] at hl
    refine .inr ⟨i, rfl, ?_, by omega⟩
    have h0 := fetchWindow_getElem s 0 (by rw [hw]; simp)
    simpa [hw] using h0.symm

end Sys2Proof.Machine
end

