-- ==== Sys2Proof/Laws/PerInstr.lean ====
section
/-! SUPPORT. Statements about every instruction as syntax, one lemma per constructor. `OpcodeBits`: the opcode byte's
bits describe the instruction (spec 30_encoding.md R64, under the default map). -/

/-- Bits 7:6 of the opcode byte count the operand bytes, bit 5 marks the ALU operations, and bit 4 marks the control
transfers. -/
def Sys2Proof.Laws.OpcodeBits.Statement (i : Sys2Proof.Instr) : Prop :=
  Sys2Proof.operandCount (Sys2Proof.opcodeByte i.kind) = i.operands.length ∧
  Sys2Proof.aluClass (Sys2Proof.opcodeByte i.kind) = i.kind.isAlu ∧
  Sys2Proof.setsPcDirectly (Sys2Proof.opcodeByte i.kind) = i.kind.isTransfer

/-- The three facts follow from the kind alone. -/
theorem Sys2Proof.Laws.opcodeBits_of_kind (i : Sys2Proof.Instr) : Sys2Proof.Laws.OpcodeBits.Statement i :=
  ⟨(Sys2Proof.operandCount_opcodeByte _).trans i.operands_length.symm, Sys2Proof.aluClass_opcodeByte _,
    Sys2Proof.setsPcDirectly_opcodeByte _⟩

theorem Sys2Proof.Laws.OpcodeBits.hlt : Sys2Proof.Laws.OpcodeBits.Statement .hlt := Sys2Proof.Laws.opcodeBits_of_kind _
theorem Sys2Proof.Laws.OpcodeBits.ldi (a b : Sys2Proof.Byte) : Sys2Proof.Laws.OpcodeBits.Statement (.ldi a b) := Sys2Proof.Laws.opcodeBits_of_kind _
theorem Sys2Proof.Laws.OpcodeBits.st (a b : Sys2Proof.Byte) : Sys2Proof.Laws.OpcodeBits.Statement (.st a b) := Sys2Proof.Laws.opcodeBits_of_kind _
theorem Sys2Proof.Laws.OpcodeBits.prn (a : Sys2Proof.Byte) : Sys2Proof.Laws.OpcodeBits.Statement (.prn a) := Sys2Proof.Laws.opcodeBits_of_kind _
theorem Sys2Proof.Laws.OpcodeBits.pra (a : Sys2Proof.Byte) : Sys2Proof.Laws.OpcodeBits.Statement (.pra a) := Sys2Proof.Laws.opcodeBits_of_kind _
theorem Sys2Proof.Laws.OpcodeBits.push (a : Sys2Proof.Byte) : Sys2Proof.Laws.OpcodeBits.Statement (.push a) := Sys2Proof.Laws.opcodeBits_of_kind _
theorem Sys2Proof.Laws.OpcodeBits.pop (a : Sys2Proof.Byte) : Sys2Proof.Laws.OpcodeBits.Statement (.pop a) := Sys2Proof.Laws.opcodeBits_of_kind _
theorem Sys2Proof.Laws.OpcodeBits.jmp (a : Sys2Proof.Byte) : Sys2Proof.Laws.OpcodeBits.Statement (.jmp a) := Sys2Proof.Laws.opcodeBits_of_kind _
theorem Sys2Proof.Laws.OpcodeBits.jeq (a : Sys2Proof.Byte) : Sys2Proof.Laws.OpcodeBits.Statement (.jeq a) := Sys2Proof.Laws.opcodeBits_of_kind _
theorem Sys2Proof.Laws.OpcodeBits.jne (a : Sys2Proof.Byte) : Sys2Proof.Laws.OpcodeBits.Statement (.jne a) := Sys2Proof.Laws.opcodeBits_of_kind _
theorem Sys2Proof.Laws.OpcodeBits.call (a : Sys2Proof.Byte) : Sys2Proof.Laws.OpcodeBits.Statement (.call a) := Sys2Proof.Laws.opcodeBits_of_kind _
theorem Sys2Proof.Laws.OpcodeBits.ret : Sys2Proof.Laws.OpcodeBits.Statement .ret := Sys2Proof.Laws.opcodeBits_of_kind _
theorem Sys2Proof.Laws.OpcodeBits.add (a b : Sys2Proof.Byte) : Sys2Proof.Laws.OpcodeBits.Statement (.add a b) := Sys2Proof.Laws.opcodeBits_of_kind _
theorem Sys2Proof.Laws.OpcodeBits.sub (a b : Sys2Proof.Byte) : Sys2Proof.Laws.OpcodeBits.Statement (.sub a b) := Sys2Proof.Laws.opcodeBits_of_kind _
theorem Sys2Proof.Laws.OpcodeBits.mul (a b : Sys2Proof.Byte) : Sys2Proof.Laws.OpcodeBits.Statement (.mul a b) := Sys2Proof.Laws.opcodeBits_of_kind _
theorem Sys2Proof.Laws.OpcodeBits.div (a b : Sys2Proof.Byte) : Sys2Proof.Laws.OpcodeBits.Statement (.div a b) := Sys2Proof.Laws.opcodeBits_of_kind _
theorem Sys2Proof.Laws.OpcodeBits.mod (a b : Sys2Proof.Byte) : Sys2Proof.Laws.OpcodeBits.Statement (.mod a b) := Sys2Proof.Laws.opcodeBits_of_kind _
theorem Sys2Proof.Laws.OpcodeBits.and (a b : Sys2Proof.Byte) : Sys2Proof.Laws.OpcodeBits.Statement (.and a b) := Sys2Proof.Laws.opcodeBits_of_kind _
theorem Sys2Proof.Laws.OpcodeBits.or (a b : Sys2Proof.Byte) : Sys2Proof.Laws.OpcodeBits.Statement (.or a b) := Sys2Proof.Laws.opcodeBits_of_kind _
theorem Sys2Proof.Laws.OpcodeBits.xor (a b : Sys2Proof.Byte) : Sys2Proof.Laws.OpcodeBits.Statement (.xor a b) := Sys2Proof.Laws.opcodeBits_of_kind _
theorem Sys2Proof.Laws.OpcodeBits.not (a : Sys2Proof.Byte) : Sys2Proof.Laws.OpcodeBits.Statement (.not a) := Sys2Proof.Laws.opcodeBits_of_kind _
theorem Sys2Proof.Laws.OpcodeBits.shl (a b : Sys2Proof.Byte) : Sys2Proof.Laws.OpcodeBits.Statement (.shl a b) := Sys2Proof.Laws.opcodeBits_of_kind _
theorem Sys2Proof.Laws.OpcodeBits.shr (a b : Sys2Proof.Byte) : Sys2Proof.Laws.OpcodeBits.Statement (.shr a b) := Sys2Proof.Laws.opcodeBits_of_kind _
theorem Sys2Proof.Laws.OpcodeBits.cmp (a b : Sys2Proof.Byte) : Sys2Proof.Laws.OpcodeBits.Statement (.cmp a b) := Sys2Proof.Laws.opcodeBits_of_kind _
end

