-- ==== Sys2Proof/Tests/Slice0.lean ====
section
/-! SUPPORT. Tests. Expected results are the vectors of spec/95_test_vectors.md (named in each comment: V, A, H, L, K, J)
or the encodings of 30_encoding.md R63; the witnesses show that the hypotheses of each obligation can be met. -/

namespace Sys2Proof.Tests

open Sys2Proof.Machine

/-! ### Helpers -/

/-- The reset state with `pc` and the bytes from there upward. -/
def atPc (pc : Nat) (bytes : List Byte) : State :=
  { State.reset with pc := pc, mem := Memory.place [] pc bytes }

/-- The same with two registers set. -/
def regs2 (s : State) (x y : Byte) : State := (s.setReg 0 x).setReg 1 y

/-- The next state of a step, if there is one. -/
def next? : Result → Option State
  | .next t => some t
  | .fault _ => none
  | .refused _ => none

/-- A register after one step. -/
def regAfter (s : State) (r : Fin 8) : Option Byte := (next? (step s)).map fun t => t.reg r

/-- `pc` and the error status after one step. -/
def endAfter (s : State) : Option (Nat × Bool × Option MachineError) :=
  (next? (step s)).map fun t => (t.pc, t.running, t.err)

/-- The instruction a byte list begins with. -/
def decoded (bytes : List Byte) : Option Instr :=
  match decode bytes with
  | .ok (i, _) => some i
  | .error _ => none

/-! ### Decoding: the bits of R63's rows, written out -/

theorem test_decode_hlt : decoded [0b00000001] = some .hlt := by decide
theorem test_decode_ldi : decoded [0b10000010, 3, 255] = some (.ldi 3 255) := by decide
theorem test_decode_st : decoded [0b10000100, 3, 1] = some (.st 3 1) := by decide
theorem test_decode_prn : decoded [0b01000111, 5] = some (.prn 5) := by decide
theorem test_decode_pra : decoded [0b01001000, 0, 1] = some (.pra 0) := by decide
theorem test_decode_push : decoded [0b01000101, 7] = some (.push 7) := by decide
theorem test_decode_pop : decoded [0b01000110, 2] = some (.pop 2) := by decide
theorem test_decode_jmp : decoded [0b01010100, 2] = some (.jmp 2) := by decide
theorem test_decode_jeq : decoded [0b01010101, 3] = some (.jeq 3) := by decide
theorem test_decode_jne : decoded [0b01010110, 3] = some (.jne 3) := by decide
theorem test_decode_call : decoded [0b01010000, 1] = some (.call 1) := by decide
theorem test_decode_ret : decoded [0b00010001] = some .ret := by decide
theorem test_decode_add : decoded [0b10100000, 1, 2] = some (.add 1 2) := by decide
theorem test_decode_sub : decoded [0b10100001, 1, 2] = some (.sub 1 2) := by decide
theorem test_decode_mul : decoded [0b10100010, 1, 2] = some (.mul 1 2) := by decide
theorem test_decode_div : decoded [0b10100011, 1, 2] = some (.div 1 2) := by decide
theorem test_decode_mod : decoded [0b10100100, 1, 2] = some (.mod 1 2) := by decide
theorem test_decode_and : decoded [0b10101000, 1, 2] = some (.and 1 2) := by decide
theorem test_decode_or : decoded [0b10101010, 1, 2] = some (.or 1 2) := by decide
theorem test_decode_xor : decoded [0b10101011, 1, 2] = some (.xor 1 2) := by decide
theorem test_decode_not : decoded [0b01101001, 2] = some (.not 2) := by decide
theorem test_decode_shl : decoded [0b10101100, 1, 2] = some (.shl 1 2) := by decide
theorem test_decode_shr : decoded [0b10101101, 1, 2] = some (.shr 1 2) := by decide
theorem test_decode_cmp : decoded [0b10100111, 1, 2] = some (.cmp 1 2) := by decide

/-- R65: 24 byte values are instructions and 232 are Invalid. -/
theorem test_decode_counts : ((List.range 256).filter fun n => (lookupRom opcodeByte (wrap8 n)).isSome).length = 24 := by
  decide

/-- R65: the LS-8 values outside the set are Invalid. -/
theorem test_decode_ls8_extras_invalid :
    ([0x00, 0x65, 0x66, 0x83, 0x52, 0x13, 0x58, 0x59, 0x57, 0x5A] : List Byte).all
      (fun b => (lookupRom opcodeByte b).isNone) = true := by decide

/-- A table word's operand bytes follow its opcode byte. -/
theorem test_table_word_add : decodeTableWord 24 0x0201A0 = some (.add 1 2) := by decide

/-- A word of 8 bits leaves the operand bytes 0. -/
theorem test_table_word_short : decodeTableWord 8 0xFFFFA0 = some (.add 0 0) := by decide

/-- A word placed at `pc` is what the next step runs (R98: LDI R7, 0x10). -/
theorem test_placed_word_runs : regAfter (State.reset.withFetchWord 24 0x100782) 7 = some 0x10 := by decide

/-! ### WellFormed refuses an index of 8 or more in each checked operand -/

theorem test_wellFormed_refuses_first_operand :
    ([.ldi 8 0, .st 8 0, .prn 8, .push 255, .pop 8, .jmp 8, .jeq 8, .jne 8, .call 8, .add 8 0, .sub 8 0, .mul 8 0] ++
      [.div 8 0, .mod 8 0, .and 8 0, .or 8 0, .xor 8 0, .not 8, .shl 8 0, .shr 8 0, .cmp 8 0] : List Instr).all
      (fun i => !i.wellFormed) = true := by decide

theorem test_wellFormed_refuses_second_operand :
    (twoRegisterForms 7 8).all (fun i => !i.wellFormed) = true := by decide

theorem test_wellFormed_accepts :
    (([.hlt, .ret, .pra 255, .ldi 7 255, .not 7] : List Instr) ++ twoRegisterForms 7 0).all (fun i => i.wellFormed) = true := by decide

/-! ### Reset -/

/-- R133. -/
theorem test_reset_regs : (List.finRange 8).map State.reset.reg = [0, 0, 0, 0, 0, 0, 0, 0xF4] := by decide

/-- S8, P7: zeroed memory holds no instruction. -/
theorem test_step_from_reset : endAfter State.reset = some (0, false, some (.invalidOpcode 0 0)) := by decide

/-! ### The cycle (V5, V8 to V14) -/

theorem test_invalid_opcode_v5 : endAfter (atPc 5 [0x00]) = some (5, false, some (.invalidOpcode 5 0)) := by decide
theorem test_fetch_at_256_v8 :
    endAfter (atPc 256 []) = some (256, false, some (.outOfBounds .memory 256 256)) := by decide
theorem test_operand_a_missing_v9 :
    endAfter (atPc 0xFF [0x82]) = some (0xFF, false, some (.outOfBounds .memory 256 0xFF)) := by decide
theorem test_operand_b_missing_v10 :
    endAfter (atPc 0xFE [0x82, 0x00]) = some (0xFE, false, some (.outOfBounds .memory 256 0xFE)) := by decide
theorem test_last_instruction_v11 : endAfter (atPc 0xFD [0x82, 0x00, 0x07]) = some (256, true, none) := by decide
theorem test_decode_before_operands_v12 :
    endAfter (atPc 0xFF [0xFF]) = some (0xFF, false, some (.invalidOpcode 0xFF 0xFF)) := by decide
theorem test_hlt_at_255_v13 : endAfter (atPc 0xFF [0x01]) = some (0, false, none) := by decide
theorem test_no_step_when_halted_v14 : next? (step { State.reset with running := false }) = none := by decide

/-! ### Register load, copy and output -/

theorem test_ldi_l1 : regAfter (atPc 0 [0x82, 0x03, 0xFF]) 3 = some 0xFF := by decide
theorem test_ldi_bad_index_l3 :
    endAfter (atPc 0 [0x82, 0x08, 0x01]) = some (0, false, some (.outOfBounds .register 8 0)) := by decide
theorem test_st_l4 : regAfter (regs2 (atPc 0 [0x84, 0x03, 0x01]) 0 0x2A) 3 = some 0x2A := by decide
theorem test_prn_l8 : (next? (step ((atPc 0 [0x47, 0x05]).setReg 5 255))).map (·.out) = some [.dec 255] := by decide
theorem test_pra_l10 :
    (next? (step (regs2 (atPc 0 [0x48, 0x00, 0x01]) 0x41 0x42))).map (fun t => (t.out, t.pc)) =
      some ([.char 0x42], 2) := by decide
theorem test_pra_l12 :
    endAfter (atPc 0 [0x48, 0x00, 0x47]) = some (0, false, some (.outOfBounds .register 0x47 0)) := by decide

/-! ### Stack -/

theorem test_push_wraps_k2 :
    (next? (step ((regs2 (atPc 0 [0x45, 0x01]) 0 9).setReg 7 0))).map (fun t => (t.sp, t.mem.read 0xFF)) =
      some (0xFF, 9) := by decide
theorem test_push_r7_k4 :
    (next? (step (atPc 0 [0x45, 0x07]))).map (fun t => (t.sp, t.mem.read 0xF3)) = some (0xF3, 0xF3) := by decide
theorem test_pop_wraps_k3 :
    (next? (step (((atPc 0 [0x46, 0x02]).setReg 7 0xFF).store 0xFF 9))).map (fun t => (t.reg 2, t.sp)) =
      some (9, 0) := by decide
theorem test_pop_r7_k5 : regAfter (((atPc 0 [0x46, 0x07]).setReg 7 0xF3).store 0xF3 0x10) 7 = some 0x11 := by decide

/-! ### Control transfer -/

theorem test_jmp_j1 : endAfter ((atPc 0x10 [0x54, 0x02]).setReg 2 0x20) = some (0x20, true, none) := by decide
theorem test_jeq_not_taken_unchecked_j5 : endAfter (atPc 0x10 [0x55, 0x09]) = some (0x12, true, none) := by decide
theorem test_jeq_taken_checked_j6 :
    endAfter { atPc 0x10 [0x55, 0x09] with flags := ⟨false, false, true⟩ } =
      some (0x10, false, some (.outOfBounds .register 9 0x10)) := by decide
theorem test_jne_j7 :
    endAfter { (atPc 0x10 [0x56, 0x03]).setReg 3 0x40 with flags := ⟨true, false, false⟩ } =
      some (0x40, true, none) := by decide
theorem test_jne_j8 :
    endAfter { (atPc 0x10 [0x56, 0x03]).setReg 3 0x40 with flags := ⟨false, false, true⟩ } =
      some (0x12, true, none) := by decide
theorem test_call_at_254_j11 :
    endAfter (atPc 0xFE [0x50, 0x01]) = some (0xFE, false, some (.outOfBounds .memory 256 0xFE)) := by decide
theorem test_call_r7_j12 :
    (next? (step (atPc 0x10 [0x50, 0x07]))).map (fun t => (t.sp, t.mem.read 0xF3, t.pc)) =
      some (0xF3, 0x12, 0xF3) := by decide
theorem test_ret_j14 :
    (next? (step (((atPc 0x10 [0x11]).setReg 7 0xFF).store 0xFF 0x30))).map (fun t => (t.pc, t.sp)) =
      some (0x30, 0) := by decide
theorem test_ret_at_255_j15 :
    endAfter (((atPc 0xFF [0x11]).setReg 7 0xF3).store 0xF3 5) = some (5, true, none) := by decide

/-! ### ALU -/

theorem test_add_wraps_a2 : regAfter (regs2 (atPc 0x10 [0xA0, 0, 1]) 200 100) 0 = some 44 := by decide
theorem test_add_same_register_a47 : regAfter ((atPc 0x10 [0xA0, 2, 2]).setReg 2 0x80) 2 = some 0 := by decide
theorem test_sub_wraps_a6 : regAfter (regs2 (atPc 0x10 [0xA1, 0, 1]) 5 7) 0 = some 254 := by decide
theorem test_mul_low_byte_a11 : regAfter (regs2 (atPc 0x10 [0xA2, 0, 1]) 255 255) 0 = some 1 := by decide
theorem test_div_a13 : regAfter (regs2 (atPc 0x10 [0xA3, 0, 1]) 100 7) 0 = some 14 := by decide
theorem test_div_index_before_divisor_a55 :
    endAfter (atPc 0x10 [0xA3, 0, 8]) = some (0x10, false, some (.outOfBounds .register 8 0x10)) := by decide
theorem test_mod_a21 : regAfter (regs2 (atPc 0x10 [0xA4, 0, 1]) 255 16) 0 = some 15 := by decide
theorem test_mod_by_zero_a23 :
    endAfter (regs2 (atPc 0x10 [0xA4, 0, 1]) 5 0) = some (0x10, false, some (.divisionByZero 0x10)) := by decide
theorem test_and_a24 : regAfter (regs2 (atPc 0x10 [0xA8, 0, 1]) 0xF0 0x3C) 0 = some 0x30 := by decide
theorem test_or_a26 : regAfter (regs2 (atPc 0x10 [0xAA, 0, 1]) 0xF0 0x0F) 0 = some 0xFF := by decide
theorem test_xor_a28 : regAfter (regs2 (atPc 0x10 [0xAB, 0, 1]) 0xFF 0x0F) 0 = some 0xF0 := by decide
theorem test_not_a31 : regAfter (regs2 (atPc 0x10 [0x69, 0]) 0x5A 0) 0 = some 0xA5 := by decide
theorem test_not_length_a30 : endAfter (atPc 0x10 [0x69, 0]) = some (0x12, true, none) := by decide
theorem test_shl_bit_lost_a35 : regAfter (regs2 (atPc 0x10 [0xAC, 0, 1]) 0x81 1) 0 = some 2 := by decide
theorem test_shl_count_255_a37 : regAfter (regs2 (atPc 0x10 [0xAC, 0, 1]) 0xFF 255) 0 = some 0 := by decide
theorem test_shr_logical_a40 : regAfter (regs2 (atPc 0x10 [0xAD, 0, 1]) 0xFF 1) 0 = some 0x7F := by decide
theorem test_shr_count_8_a39 : regAfter (regs2 (atPc 0x10 [0xAD, 0, 1]) 0xFF 8) 0 = some 0 := by decide
theorem test_cmp_unsigned_a45 :
    (next? (step (regs2 (atPc 0x10 [0xA7, 0, 1]) 0 255))).map (·.flags) = some ⟨true, false, false⟩ := by decide
theorem test_cmp_equal_a42 :
    (next? (step (regs2 (atPc 0x10 [0xA7, 0, 1]) 5 5))).map (·.flags) = some ⟨false, false, true⟩ := by decide

/-! ### Error codes (R29) and code in memory (R52) -/

theorem test_error_codes :
    [none, some (.invalidOpcode 5 0), some (.divisionByZero 5), some (.outOfBounds .memory 256 256)].map errorCode =
      [0, 1, 2, 3] := by decide

/-- P8's last PUSH writes the byte that is fetched next. -/
theorem test_push_writes_next_instruction_p8 :
    ((next? (step (((atPc 6 [0x45, 0x00]).setReg 7 9).setReg 0 1))).bind fun t => endAfter t) =
      some (0, false, none) := by decide

/-! ### Witnesses: concrete inputs that meet the hypotheses of each obligation -/

theorem witness_ResetAndImageContents : (List.replicate 256 (0x01 : Byte)).length ≤ 256 := by
  simp only [List.length_replicate, le_refl]

theorem witness_LaunchStateOrRefusal :
    (List.replicate 256 (0x01 : Byte)).length ≤ 256 ∧ 256 < (List.replicate 257 (0x01 : Byte)).length := by
  simp only [List.length_replicate, le_refl, Nat.lt_add_one, and_self]

/-- A state of the invariant that is not the reset state. -/
theorem inv_atPc : (atPc 0xFD [0x82, 0x07, 0x10]).Inv :=
  ⟨by decide, by decide, by decide, fun e h => absurd (show none = some e from h) (Option.some_ne_none e).symm,
    fun h => absurd (show true = false from h) (by decide)⟩

theorem witness_StepKeepsMachineInvariant :
    OpcodeMap.Conforms opcodeByte ∧ (atPc 0xFD [0x82, 0x07, 0x10]).Inv ∧
      (∃ t, cycle opcodeByte (atPc 0xFD [0x82, 0x07, 0x10]) = .next t) ∧
      ∃ t, step (atPc 0xFD [0x82, 0x07, 0x10]) = .next t :=
  ⟨opcodeByte_conforms, inv_atPc, ⟨_, rfl⟩, ⟨_, rfl⟩⟩

theorem witness_NoStepWhileHalted : ({ State.reset with running := false, pc := 3 } : State).running = false := rfl

theorem witness_RunningMachineAlwaysSteps : (atPc 0xFF [0xC0]).running = true := rfl

theorem witness_StepHaltsOnlyByHltOrPreciseError :
    (∃ t, (atPc 0xFF [0x01]).err = none ∧ step (atPc 0xFF [0x01]) = .next t ∧ t.running = false) ∧
      ∃ t, (atPc 0xFF [0xC0]).err = none ∧ step (atPc 0xFF [0xC0]) = .next t ∧ t.running = false ∧ t.err ≠ none :=
  ⟨⟨_, rfl, rfl, rfl⟩, ⟨_, rfl, rfl, rfl, Option.some_ne_none _⟩⟩

theorem witness_OnlyCmpWritesFlagsOnlyBranchesReadE :
    (Instr.add 0 7).kind ≠ .cmp ∧ (Instr.add 0 7).kind ≠ .jeq ∧ (Instr.add 0 7).kind ≠ .jne ∧
      ∃ t, exec (.add 0 7) State.reset = .next t := ⟨by decide, by decide, by decide, _, rfl⟩

theorem witness_FlagsMutuallyExclusive :
    ({ atPc 0 [0xA7, 0, 7] with flags := ⟨false, true, false⟩ } : State).flags.count ≤ 1 ∧
      ∃ t, step { atPc 0 [0xA7, 0, 7] with flags := ⟨false, true, false⟩ } = .next t := ⟨by decide, _, rfl⟩

theorem witness_OutputStreamIsAppendOnly :
    (∃ t, State.reset.err = none ∧ exec (.prn 7) State.reset = .next t ∧ t.err = none) ∧
      ∃ t, State.reset.err = none ∧ exec (.prn 8) State.reset = .next t ∧ t.err ≠ none :=
  ⟨⟨_, rfl, rfl, rfl⟩, ⟨_, rfl, rfl, Option.some_ne_none _⟩⟩

theorem witness_RegistersChangeOnlyByTable :
    ∃ t, exec (.pop 0) State.reset = .next t ∧ (1 : Fin 8) ∉ mayWrite (.pop 0) := ⟨_, rfl, by decide⟩

theorem witness_MemoryChangesOnlyAtPushSlot :
    (∃ t, exec (.push 7) State.reset = .next t) ∧
      ∃ t, exec (.add 0 7) State.reset = .next t ∧ (Instr.add 0 7).kind ≠ .push ∧ (Instr.add 0 7).kind ≠ .call :=
  ⟨⟨_, rfl⟩, ⟨_, rfl, by decide, by decide⟩⟩

theorem witness_MemReadMemWriteBounds : (256 : Nat) > 255 ∧ (255 : Nat) ≤ 255 := by decide

theorem witness_CanonicalMemoryIsDeterminedByReads :
    Memory.wf [(0, 1), (255, 2)] = true ∧
      ∀ addr, addr < 256 → Memory.read [(0, 1), (255, 2)] addr = Memory.read [(0, 1), (255, 2)] addr :=
  ⟨by decide, fun _ _ => rfl⟩

theorem witness_DecodeOfEncodeIsIdentity : OpcodeMap.Conforms opcodeByte := opcodeByte_conforms

theorem witness_FirstByteGivesLength :
    OpcodeMap.Conforms opcodeByte ∧ decodeWith opcodeByte [0x69, 0x02, 0x00] = .ok (.not 2, [0x00]) :=
  ⟨opcodeByte_conforms, rfl⟩

theorem witness_OpcodeBitsDriveSequencer :
    OpcodeMap.Conforms opcodeByte ∧ Instr.jmp 0 ≠ .hlt ∧
      ∃ t, State.reset.err = none ∧ exec (.add 0 7) State.reset = .next t ∧ t.err = none ∧
        setsPcDirectly (opcodeByte (Instr.add 0 7).kind) = false ∧ Instr.add 0 7 ≠ .hlt :=
  ⟨opcodeByte_conforms, by decide, _, rfl, rfl, rfl, by decide, by decide⟩

theorem witness_StepRunsDecodedInstruction :
    (atPc 0xFE [0x69, 0x02]).running = true ∧ decode (fetchWindow (atPc 0xFE [0x69, 0x02])) = .ok (.not 2, []) :=
  ⟨rfl, rfl⟩

/-- The last place a three-byte instruction fits. -/
theorem instructionAt_end : InstructionAt opcodeByte (.ldi 0 7) (atPc 0xFD [0x82, 0x00, 0x07]) :=
  ⟨by decide, by decide⟩

theorem witness_CycleRunsInstructionInMemory :
    OpcodeMap.Conforms opcodeByte ∧ (atPc 0xFD [0x82, 0x00, 0x07]).running = true ∧
      InstructionAt opcodeByte (.ldi 0 7) (atPc 0xFD [0x82, 0x00, 0x07]) :=
  ⟨opcodeByte_conforms, rfl, instructionAt_end⟩

theorem witness_InvalidOpcodeHalts :
    (atPc 0xFF [0xFF]).running = true ∧ (atPc 0xFF [0xFF]).pc ≤ 255 ∧
      ∀ k, opcodeByte k ≠ (atPc 0xFF [0xFF]).mem.read (atPc 0xFF [0xFF]).pc :=
  ⟨rfl, by decide, fun k => by cases k <;> decide⟩

theorem witness_FetchPastMemoryHalts :
    ((atPc 256 []).running = true ∧ 255 < (atPc 256 []).pc) ∧
      OpcodeMap.Conforms opcodeByte ∧ (atPc 0xFE [0x82]).running = true ∧ (atPc 0xFE [0x82]).pc ≤ 255 ∧
      (atPc 0xFE [0x82]).mem.read (atPc 0xFE [0x82]).pc = opcodeByte .ldi ∧
      255 < (atPc 0xFE [0x82]).pc + operandCount (opcodeByte .ldi) :=
  ⟨by decide, opcodeByte_conforms, by decide, by decide, by decide, by decide⟩

theorem witness_PlacedWordIsFetched :
    (atPc 253 []).pc ≤ 253 ∧ decodeTableWord 24 0x0201A0 = some (.add 1 2) := by decide

theorem witness_BadRegisterIndexHalts :
    (8 ≤ (8 : Byte).toNat ∧ Instr.cmp 8 9 ∈ oneRegisterForms 8 9 ++ twoRegisterForms 8 9) ∧
      ((7 : Byte).toNat < 8 ∧ 8 ≤ (8 : Byte).toNat ∧ Instr.add 7 8 ∈ twoRegisterForms 7 8) ∧
      (8 ≤ (255 : Byte).toNat ∧ ({ State.reset with flags := ⟨false, false, true⟩ } : State).flags.e = true) ∧
      (8 ≤ (255 : Byte).toNat ∧ State.reset.flags.e = false) ∧
      ((atPc 253 [0x48, 0, 8]).pc + 2 ≤ 255 ∧
        8 ≤ ((atPc 253 [0x48, 0, 8]).mem.read ((atPc 253 [0x48, 0, 8]).pc + 2)).toNat) := by decide

theorem witness_DivisionByZeroHalts :
    State.reset.reg 0 = 0 ∧ Instr.mod (regByte 7) (regByte 0) ∈ [Instr.div (regByte 7) (regByte 0), .mod (regByte 7) (regByte 0)] := by
  decide

theorem witness_CallAndPraAtMemoryEndHalt : 253 < (atPc 254 [0x50, 0x01]).pc := by decide

theorem witness_WellFormedInstructionStepsSafely :
    (atPc 0xFD [0x82, 0x00, 0x07]).running = true ∧ (atPc 0xFD [0x82, 0x00, 0x07]).err = none ∧
      InstructionAt opcodeByte (.ldi 0 7) (atPc 0xFD [0x82, 0x00, 0x07]) ∧ (Instr.ldi 0 7).wellFormed = true ∧
      (Instr.ldi 0 7).kind ≠ .pra ∧ (Instr.ldi 0 7).kind ≠ .div ∧ (Instr.ldi 0 7).kind ≠ .mod ∧
      (Instr.ldi 0 7).kind ≠ .call :=
  ⟨rfl, rfl, instructionAt_end, by decide, by decide, by decide, by decide, by decide⟩

theorem witness_PrnAndPraEmitOneEvent :
    (atPc 253 [0x48, 0, 7]).pc + 2 ≤ 255 ∧
      (atPc 253 [0x48, 0, 7]).mem.read ((atPc 253 [0x48, 0, 7]).pc + 2) = regByte 7 := by decide

theorem witness_PopLoadsThenIncrementsSp : (6 : Fin 8) ≠ 7 := by decide

theorem witness_ConditionalJumpsFollowE :
    ({ State.reset with flags := ⟨false, false, true⟩ } : State).flags.e = true ∧ State.reset.flags.e = false := by
  decide

theorem witness_CallPushesReturnAddress : (atPc 253 []).pc ≤ 253 := by decide

theorem witness_DivModQuotientRemainder : State.reset.reg 7 ≠ 0 := by decide

/-- Counts on both sides of the clause on large counts. -/
theorem witness_ShiftsByWholeCount :
    8 ≤ ((regs2 State.reset 1 8).reg 1).toNat ∧ ¬ 8 ≤ ((regs2 State.reset 1 7).reg 1).toNat := by decide

/-- One register twice, and DIV of a register that is not zero by itself. -/
theorem witness_AluReadsBothOperandsFirst :
    (Kind.add ∈ [Kind.add, .sub, .mul, .div, .mod, .and, .or, .xor, .shl, .shr] ∧
      ∃ t, State.reset.err = none ∧ exec (Kind.add.instr (regByte 7) (regByte 7)) State.reset = .next t ∧ t.err = none) ∧
      (∃ t, exec (Kind.div.instr (regByte 7) (regByte 7)) State.reset = .next t ∧ t.err = none) ∧
      (∃ t, exec (.not (regByte 7)) State.reset = .next t) ∧
      ∃ t, exec (.cmp (regByte 7) (regByte 7)) State.reset = .next t :=
  ⟨⟨by decide, ⟨_, rfl, rfl, rfl⟩⟩, ⟨_, rfl, rfl⟩, ⟨_, rfl⟩, ⟨_, rfl⟩⟩

theorem witness_AluMatchesBitVectorOperations : (1 : Byte) ≠ 0 := by decide

theorem witness_PushThenPopRestores :
    (6 : Fin 8) ≠ 7 ∧ ∃ t u, exec (.push (regByte 6)) State.reset = .next t ∧ exec (.pop (regByte 6)) t = .next u :=
  ⟨by decide, _, _, rfl, rfl⟩

theorem witness_CallThenRetReturns :
    ∃ t v, (atPc 253 []).pc ≤ 253 ∧ exec (.call (regByte 7)) (atPc 253 []) = .next t ∧ t.sp = t.sp ∧
      t.mem.read t.sp.toNat = t.mem.read t.sp.toNat ∧ exec .ret t = .next v :=
  ⟨_, _, by decide, rfl, rfl, rfl, rfl⟩

theorem witness_CompareThenBranch :
    (∃ t, exec (.cmp (regByte 0) (regByte 1)) State.reset = .next t ∧ State.reset.reg 0 = State.reset.reg 1) ∧
      ∃ t, exec (.cmp (regByte 0) (regByte 7)) State.reset = .next t ∧ State.reset.reg 0 ≠ State.reset.reg 7 :=
  ⟨⟨_, rfl, by decide⟩, ⟨_, rfl, by decide⟩⟩

end Sys2Proof.Tests
end

/-! The proofs about the state's elements (spec 10_state.md): what reset and the loader leave in the registers
and the memory, and what can write and read the flags. -/

namespace Sys2Proof.Machine

/-! ### Reset and the loader -/

/-- R20. -/
theorem State.reset_reg : ∀ r : Fin 8, State.reset.reg r = if r = 7 then 0xF4 else 0 := by decide

/-- R54: an image that fits is placed at address 0 upward. -/
theorem launch_of_fits (entry : Byte) {image : List Byte} (h : image.length ≤ 256) :
    launch entry image =
      .next { State.reset with mem := Memory.place [] 0 image, pc := entry.toNat } :=
  if_neg (Nat.not_lt.mpr h)

/-- R40: an image placed in the zero memory is read back from address 0, with 0 past its end. -/
theorem Memory.read_place_nil {image : List Byte} (addr : Nat) (h : image.length ≤ 256) :
    (Memory.place [] 0 image).read addr = image.getD addr 0 := by
  rw [Memory.read_place [] 0 image addr (by omega)]
  by_cases hin : addr < image.length
  · simp [hin]
  · simp [hin]

/-- Settles O1: the loader starts from the zero memory and writes no register. -/
theorem resetAndImageContents : Obligations.ResetAndImageContents := by
  refine ⟨State.reset_reg, Memory.read_nil, fun entry image h => ?_⟩
  exact ⟨_, launch_of_fits entry h, fun _ => rfl, fun addr => Memory.read_place_nil addr h⟩

/-! ### What an instruction and a step leave in the flags -/

/-- Exactly one of less, greater and equal holds (R94). -/
theorem compareFlags_count (x y : Byte) : (compareFlags x y).count = 1 := by
  obtain h | h | h := lt_trichotomy x.toNat y.toNat
  · simp [compareFlags, Flags.count, h, h.ne, h.le]
  · simp [compareFlags, Flags.count, h]
  · simp [compareFlags, Flags.count, h, h.ne', h.le]

/-- CMP of two registers has one answer, and it does not mention the old flags (R94). -/
theorem exec_cmp_regByte (r q : Fin 8) (s : State) :
    exec (.cmp (regByte r) (regByte q)) s =
      .next (({ s with flags := compareFlags (s.reg r) (s.reg q) } : State).advance 2) :=
  usingRegs_regByte r q _

/-- R25: an instruction keeps the flags, unless it is a CMP that writes a comparison's. -/
theorem exec_flags {i : Instr} {s t : State} (h : exec i s = .next t) :
    t.flags = s.flags ∨ i.kind = .cmp ∧ ∃ x y, t.flags = compareFlags x y := by
  obtain ⟨e, -, h'⟩ | ⟨-, h'⟩ | ⟨u, h', hu⟩ := exec_cases i s <;> cases h.symm.trans h'
  · exact .inl rfl
  · exact .inl rfl
  · exact hu.flags

/-- R26: under any opcode map a step keeps the flags or leaves a comparison's. -/
theorem cycle_flags {rom : OpcodeMap} {s t : State} (h : cycle rom s = .next t) :
    t.flags = s.flags ∨ ∃ x y, t.flags = compareFlags x y := by
  by_cases hrun : s.running = true
  · obtain ⟨e, -, h'⟩ | ⟨i, h', -⟩ := cycle_cases rom hrun
    · cases h.symm.trans h'
      exact .inl rfl
    · exact (exec_flags (h'.symm.trans h)).imp_right And.right
  · simp [cycle, hrun] at h

/-- Settles O9: what a step leaves in the flags is what was there or the flags of a comparison. -/
theorem flagsMutuallyExclusive : Obligations.FlagsMutuallyExclusive := by
  refine ⟨rfl, fun s t hs h => ?_, fun r q s => ⟨_, exec_cmp_regByte r q s, compareFlags_count _ _⟩⟩
  obtain hf | ⟨x, y, hf⟩ := cycle_flags h
  · rwa [hf]
  · rw [hf, compareFlags_count]

/-! ### Other flags before the instruction

Replacing the flags commutes with the shared operations, so it commutes with every instruction built from them. -/

/-- The state with other flags. -/
def State.withFlags (s : State) (f : Flags) : State := { s with flags := f }

/-- The answer with other flags in its next state. -/
def Result.withFlags (f : Flags) : Result → Result
  | .next t => .next (t.withFlags f)
  | .fault r => .fault r
  | .refused r => .refused r

variable {s : State} {f : Flags}

@[simp] theorem State.withFlags_flags : (s.withFlags f).flags = f := rfl
@[simp] theorem State.withFlags_pc : (s.withFlags f).pc = s.pc := rfl
@[simp] theorem State.withFlags_memRead (addr : Nat) : (s.withFlags f).memRead addr = s.memRead addr := rfl

/-- The operand checks read no flag: with other flags they go on with the same register, or raise the same error. -/
theorem usingReg_withFlags (a : Byte) {go go' : Fin 8 → Result} (h : ∀ r, go' r = Result.withFlags f (go r)) :
    usingReg a (s.withFlags f) go' = Result.withFlags f (usingReg a s go) := by
  obtain ⟨r, rfl⟩ | ha := regByte_or_large a
  · simpa using h r
  · rw [usingReg_large ha, usingReg_large ha]
    rfl

theorem usingRegs_withFlags (a b : Byte) {go go' : Fin 8 → Fin 8 → Result}
    (h : ∀ r q, go' r q = Result.withFlags f (go r q)) :
    usingRegs a b (s.withFlags f) go' = Result.withFlags f (usingRegs a b s go) :=
  usingReg_withFlags a fun r => usingReg_withFlags b fun q => h r q

theorem usingNextByte_withFlags {go go' : Byte → Result} (h : ∀ b, go' b = Result.withFlags f (go b)) :
    usingNextByte (s.withFlags f) go' = Result.withFlags f (usingNextByte s go) := by
  simp only [usingNextByte, State.withFlags_pc, State.withFlags_memRead]
  cases s.memRead (s.pc + 2) with
  | ok b => exact h b
  | error e => rfl

/-- A branch whose condition is the same under both flags. -/
theorem ite_withFlags {c : Prop} [Decidable c] {x x' y y' : Result} (hx : x' = Result.withFlags f x)
    (hy : y' = Result.withFlags f y) : (if c then x' else y') = Result.withFlags f (if c then x else y) := by
  rw [hx, hy, apply_ite (Result.withFlags f)]

theorem aluBinary_withFlags (op : Byte → Byte → Byte) (a b : Byte) :
    aluBinary op a b (s.withFlags f) = Result.withFlags f (aluBinary op a b s) :=
  usingRegs_withFlags a b fun _ _ => rfl

theorem aluDivision_withFlags (op : Byte → Byte → Byte) (a b : Byte) :
    aluDivision op a b (s.withFlags f) = Result.withFlags f (aluDivision op a b s) :=
  usingRegs_withFlags a b fun _ q => ite_withFlags (c := s.reg q = 0) rfl rfl

theorem jumpReg_withFlags (a : Byte) : jumpReg a (s.withFlags f) = Result.withFlags f (jumpReg a s) :=
  usingReg_withFlags a fun _ => rfl

/-- R25: with the same E, a conditional jump takes the same branch. -/
theorem execJeq_withFlags (a : Byte) (he : f.e = s.flags.e) :
    execJeq a (s.withFlags f) = Result.withFlags f (execJeq a s) := by
  simp only [execJeq, State.withFlags_flags, he]
  exact ite_withFlags (jumpReg_withFlags a) rfl

theorem execJne_withFlags (a : Byte) (he : f.e = s.flags.e) :
    execJne a (s.withFlags f) = Result.withFlags f (execJne a s) := by
  simp only [execJne, State.withFlags_flags, he]
  exact ite_withFlags rfl (jumpReg_withFlags a)

theorem execCall_withFlags (a : Byte) : execCall a (s.withFlags f) = Result.withFlags f (execCall a s) :=
  usingReg_withFlags a fun _ => ite_withFlags (c := s.pc + 2 > 255) rfl rfl

/-- R25, R81: an instruction that is no CMP does the same with other flags, as long as a conditional jump sees the same
E. -/
theorem exec_withFlags (i : Instr) (hcmp : i.kind ≠ .cmp) (he : i.kind = .jeq ∨ i.kind = .jne → f.e = s.flags.e) :
    exec i (s.withFlags f) = Result.withFlags f (exec i s) := by
  cases i with
  | hlt => rfl
  | ldi a imm => exact usingReg_withFlags a fun _ => rfl
  | st a b => exact usingRegs_withFlags a b fun _ _ => rfl
  | prn a => exact usingReg_withFlags a fun _ => rfl
  | pra a => exact usingNextByte_withFlags fun b => usingReg_withFlags b fun _ => rfl
  | push a => exact usingReg_withFlags a fun _ => rfl
  | pop a => exact usingReg_withFlags a fun _ => rfl
  | jmp a => exact jumpReg_withFlags a
  | jeq a => exact execJeq_withFlags a (he (.inl rfl))
  | jne a => exact execJne_withFlags a (he (.inr rfl))
  | call a => exact execCall_withFlags a
  | ret => rfl
  | add a b => exact aluBinary_withFlags _ a b
  | sub a b => exact aluBinary_withFlags _ a b
  | mul a b => exact aluBinary_withFlags _ a b
  | div a b => exact aluDivision_withFlags _ a b
  | mod a b => exact aluDivision_withFlags _ a b
  | and a b => exact aluBinary_withFlags _ a b
  | or a b => exact aluBinary_withFlags _ a b
  | xor a b => exact aluBinary_withFlags _ a b
  | not a => exact usingReg_withFlags a fun _ => rfl
  | shl a b => exact aluBinary_withFlags _ a b
  | shr a b => exact aluBinary_withFlags _ a b
  | cmp a b => exact absurd rfl hcmp

/-- Settles O8: replacing the flags commutes with every instruction but CMP, and CMP's answer does not mention them. -/
theorem onlyCmpWritesFlagsOnlyBranchesReadE : Obligations.OnlyCmpWritesFlagsOnlyBranchesReadE := by
  refine ⟨fun i s t hcmp h => ?_, fun r q s f => ?_⟩
  · have hsame : ∀ f : Flags, (i.kind = .jeq ∨ i.kind = .jne → f.e = s.flags.e) →
        exec i (s.withFlags f) = .next (t.withFlags f) := fun f he =>
      (exec_withFlags i hcmp he).trans (congrArg (Result.withFlags f) h)
    refine ⟨?_, fun l g => hsame _ fun _ => rfl, fun hjeq hjne f => hsame f fun hj => ?_⟩
    · exact (exec_flags h).resolve_right fun hc => hcmp hc.1
    · exact (hj.elim hjeq hjne).elim
  · rw [exec_cmp_regByte, exec_cmp_regByte]
    rfl

end Sys2Proof.Machine

/-! The proofs about the memory operations (spec 20_memory.md): checked access past the last cell and inside. -/

namespace Sys2Proof.Machine

variable {s : State} {addr : Nat}

/-- R37: past 255 a read raises. -/
theorem State.memRead_outside (h : addr > 255) : s.memRead addr = .error (.outOfBounds .memory addr s.pc) := if_pos h

/-- R38: past 255 a write raises. -/
theorem State.memWrite_outside (v : Byte) (h : addr > 255) :
    s.memWrite addr v = .error (.outOfBounds .memory addr s.pc) := if_pos h

/-- R38: inside, a write changes the memory array alone. -/
theorem State.memWrite_ok (v : Byte) (h : addr ≤ 255) :
    s.memWrite addr v = .ok { s with mem := s.mem.write addr v } := if_neg (Nat.not_lt.mpr h)

/-- R38: the byte just written is read back. -/
theorem State.memRead_write_same (v : Byte) (h : addr ≤ 255) :
    ({ s with mem := s.mem.write addr v } : State).memRead addr = .ok v := by
  rw [State.memRead_ok h, Memory.read_write, if_pos rfl]

/-- R38: a write keeps every cell but the one at its address. -/
theorem memoryKeptBut_write (s : State) (addr : Nat) (v : Byte) :
    MemoryKeptBut [addr] s { s with mem := s.mem.write addr v } := by
  intro x hx
  rw [Memory.read_write, if_neg (List.ne_of_not_mem_cons hx)]

/-- Settles O13: the bound decides between the error and the access, and the cells after a write are those of
`Memory.read_write`. -/
theorem memReadMemWriteBounds : Obligations.MemReadMemWriteBounds := by
  refine fun s addr v => ⟨fun h => ?_, fun h => ?_⟩
  · exact ⟨State.memRead_outside h, State.memWrite_outside v h⟩
  · exact ⟨State.memRead_ok h, _, State.memWrite_ok v h, rfl, State.memRead_write_same v h,
      memoryKeptBut_write s addr v⟩

end Sys2Proof.Machine

/-! The proofs about the encoding (spec 30_encoding.md): the bytes of a decoded instruction and their number. -/

namespace Sys2Proof

/-- No instruction has more than `op_a` and `op_b` (R55). -/
theorem Kind.arity_le_two (k : Kind) : k.arity ≤ 2 := by cases k <;> decide

/-- An instruction keeps of its two operand bytes the first ones, as many as its kind declares (R61). -/
theorem Kind.operands_instr (k : Kind) (a b : Byte) : (k.instr a b).operands = [a, b].take k.arity := by
  cases k <;> rfl

/-- The decoder's two operand bytes, cut to a length that is there, are the first bytes of the list. -/
theorem take_operandBytes {n : Nat} {bytes : List Byte} (hn : n ≤ 2) (hlen : n ≤ bytes.length) :
    [bytes.getD 0 0, bytes.getD 1 0].take n = bytes.take n := by
  match bytes with
  | [] => simp [Nat.le_zero.mp hlen]
  | [a] =>
    have h : n = 0 ∨ n = 1 := Nat.le_one_iff_eq_zero_or_eq_one.mp hlen
    obtain rfl | rfl := h <;> rfl
  | a :: b :: rest => exact (List.take_append_of_le_length (l₁ := [a, b]) hn).symm

/-- An instruction built from bytes that hold all its operands has the first of them as operands. -/
theorem Kind.operands_instr_getD {k : Kind} {bytes : List Byte} (h : k.arity ≤ bytes.length) :
    (k.instr (bytes.getD 0 0) (bytes.getD 1 0)).operands = bytes.take k.arity :=
  (k.operands_instr _ _).trans (take_operandBytes k.arity_le_two h)

/-- R55, R67: the opcode byte and the operand bytes it counts. -/
theorem OpcodeMap.Conforms.encodeWith_length {rom : OpcodeMap} (hrom : rom.Conforms) (i : Instr) :
    (encodeWith rom i).length = 1 + operandCount (rom i.kind) := by
  obtain ⟨hcount, -, -, -⟩ := hrom
  rw [encodeWith, List.length_cons, i.operands_length, hcount, Nat.add_comm]

/-- What the decoder reads is the instruction's encoding, and it leaves the bytes after it. -/
theorem OpcodeMap.Conforms.eq_encodeWith_append {rom : OpcodeMap} (hrom : rom.Conforms) {bytes rest : List Byte}
    {i : Instr} (h : decodeWith rom bytes = .ok (i, rest)) : bytes = encodeWith rom i ++ rest := by
  obtain ⟨hcount, -, -, -⟩ := hrom
  obtain ⟨tail, rfl, hlen, hi, rfl⟩ := Machine.decodeWith_ok h
  rw [hcount] at hlen ⊢
  have hops : i.operands = tail.take i.kind.arity := by
    rw [hi, Kind.operands_instr_getD hlen, Kind.kind_instr]
  rw [encodeWith, hops, List.cons_append, List.take_append_drop]

/-- Settles O16: the list is the encoding and the rest, so its first byte is the opcode byte, which counts the operand
bytes under a conforming map. -/
theorem firstByteGivesLength : Obligations.FirstByteGivesLength := by
  intro rom hrom ir bytes i rest h
  have hbytes : ir :: bytes = encodeWith rom i ++ rest := hrom.eq_encodeWith_append h
  have hir : ir = rom i.kind := List.head_eq_of_cons_eq hbytes
  exact ⟨hbytes, hir ▸ hrom.encodeWith_length i⟩

end Sys2Proof

/-! The proofs about the ALU (spec 40_alu.md): its operations read their registers before they write the
destination. -/

namespace Sys2Proof.Machine

variable {s t : State} {f : Byte → Byte → Byte} {k : Kind} {r q : Fin 8}

/-! ### What an operation that completes leaves -/

/-- Writing one register and advancing has the frame of that register (R80). -/
theorem onlyWrites_setReg_advance (s : State) (r : Fin 8) (v : Byte) (n : Nat) :
    OnlyWrites [r] [] s ((s.setReg r v).advance n) := by
  have hregs : RegsKeptBut [r] s ((s.setReg r v).advance n) := by
    intro x hx
    rw [State.advance_reg, State.reg_setReg, if_neg (List.ne_of_not_mem_cons hx)]
  exact ⟨hregs, fun _ _ => rfl, rfl, rfl, rfl, rfl⟩

/-- The register written holds the value after the advance. -/
theorem reg_setReg_advance_same (s : State) (r : Fin 8) (v : Byte) (n : Nat) :
    ((s.setReg r v).advance n).reg r = v := by
  rw [State.advance_reg, State.reg_setReg, if_pos rfl]

/-- A binary operation has one answer, computed from the state before it (R80). -/
theorem aluBinary_regByte (f : Byte → Byte → Byte) (r q : Fin 8) (s : State) :
    aluBinary f (regByte r) (regByte q) s = .next ((s.setReg r (f (s.reg r) (s.reg q))).advance 2) :=
  usingRegs_regByte r q _

/-- A division that leaves no error is computed from the state before it; the other answer is the error of R115. -/
theorem eq_of_aluDivision_regByte (h : aluDivision f (regByte r) (regByte q) s = .next t) (ht : t.err = none) :
    t = (s.setReg r (f (s.reg r) (s.reg q))).advance 2 := by
  rw [aluDivision, usingRegs_regByte] at h
  split at h
  · cases h
    exact absurd ht (Option.some_ne_none _)
  · cases h
    rfl

/-- NOT of a register has one answer (R91). -/
theorem exec_not_regByte (r : Fin 8) (s : State) :
    exec (.not (regByte r)) s = .next ((s.setReg r (aluNot (s.reg r))).advance 1) :=
  usingReg_regByte r _

/-! ### One function per operation -/

/-- The function is constant in neither of its two values. -/
def DependsOnBoth (f : Byte → Byte → Byte) : Prop :=
  (∃ x x' y, f x y ≠ f x' y) ∧ ∃ x y y', f x y ≠ f x y'

/-- Whenever the kind's instruction completes, it writes `f` of the two values before it and advances. -/
def Computes (k : Kind) (f : Byte → Byte → Byte) : Prop :=
  ∀ (r q : Fin 8) s t, exec (k.instr (regByte r) (regByte q)) s = .next t → t.err = none →
    t = (s.setReg r (f (s.reg r) (s.reg q))).advance 2

theorem Computes.of_aluBinary (h : ∀ a b s, exec (k.instr a b) s = aluBinary f a b s) : Computes k f := by
  intro r q s t hexec _
  rw [h, aluBinary_regByte] at hexec
  cases hexec
  rfl

theorem Computes.of_aluDivision (h : ∀ a b s, exec (k.instr a b) s = aluDivision f a b s) : Computes k f := by
  intro r q s t hexec ht
  rw [h] at hexec
  exact eq_of_aluDivision_regByte hexec ht

/-- R80: the kind's one function gives the destination's value, and the frame is the destination. -/
theorem Computes.reads_both_first (h : Computes k f) (hf : DependsOnBoth f) :
    ∃ f : Byte → Byte → Byte,
      (∃ x x' y, f x y ≠ f x' y) ∧ (∃ x y y', f x y ≠ f x y') ∧
      ∀ (r q : Fin 8) s t, s.err = none → exec (k.instr (regByte r) (regByte q)) s = .next t → t.err = none →
        t.reg r = f (s.reg r) (s.reg q) ∧ OnlyWrites [r] [] s t := by
  refine ⟨f, hf.1, hf.2, fun r q s t _ hexec ht => ?_⟩
  rw [h r q s t hexec ht]
  exact ⟨reg_setReg_advance_same .., onlyWrites_setReg_advance ..⟩

/-! ### The ten functions depend on both values

The witnesses for DIV and MOD have non-zero divisors, where the operation completes. -/

theorem dependsOnBoth_aluAdd : DependsOnBoth aluAdd := ⟨⟨0, 1, 0, by decide⟩, 0, 0, 1, by decide⟩
theorem dependsOnBoth_aluSub : DependsOnBoth aluSub := ⟨⟨0, 1, 0, by decide⟩, 0, 0, 1, by decide⟩
theorem dependsOnBoth_aluMul : DependsOnBoth aluMul := ⟨⟨0, 1, 1, by decide⟩, 1, 0, 1, by decide⟩
theorem dependsOnBoth_aluDiv : DependsOnBoth aluDiv := ⟨⟨0, 1, 1, by decide⟩, 1, 1, 2, by decide⟩
theorem dependsOnBoth_aluMod : DependsOnBoth aluMod := ⟨⟨0, 1, 2, by decide⟩, 1, 1, 2, by decide⟩
theorem dependsOnBoth_aluAnd : DependsOnBoth aluAnd := ⟨⟨0, 1, 1, by decide⟩, 1, 0, 1, by decide⟩
theorem dependsOnBoth_aluOr : DependsOnBoth aluOr := ⟨⟨0, 1, 0, by decide⟩, 0, 0, 1, by decide⟩
theorem dependsOnBoth_aluXor : DependsOnBoth aluXor := ⟨⟨0, 1, 0, by decide⟩, 0, 0, 1, by decide⟩
theorem dependsOnBoth_aluShl : DependsOnBoth aluShl := ⟨⟨0, 1, 0, by decide⟩, 1, 0, 1, by decide⟩
theorem dependsOnBoth_aluShr : DependsOnBoth aluShr := ⟨⟨0, 1, 0, by decide⟩, 1, 0, 1, by decide⟩

/-- Settles O42: each kind computes the function of its rule, and CMP's answer writes the flags and `pc` alone. -/
theorem aluReadsBothOperandsFirst : Obligations.AluReadsBothOperandsFirst := by
  refine ⟨?binary, ⟨aluNot, ⟨0, 1, by decide⟩, fun r s t h => ?not⟩, fun r q s t h => ?cmp⟩
  case binary =>
    simp only [List.forall_mem_cons]
    exact
      ⟨(Computes.of_aluBinary (k := .add) fun _ _ _ => rfl).reads_both_first dependsOnBoth_aluAdd,
        (Computes.of_aluBinary (k := .sub) fun _ _ _ => rfl).reads_both_first dependsOnBoth_aluSub,
        (Computes.of_aluBinary (k := .mul) fun _ _ _ => rfl).reads_both_first dependsOnBoth_aluMul,
        (Computes.of_aluDivision (k := .div) fun _ _ _ => rfl).reads_both_first dependsOnBoth_aluDiv,
        (Computes.of_aluDivision (k := .mod) fun _ _ _ => rfl).reads_both_first dependsOnBoth_aluMod,
        (Computes.of_aluBinary (k := .and) fun _ _ _ => rfl).reads_both_first dependsOnBoth_aluAnd,
        (Computes.of_aluBinary (k := .or) fun _ _ _ => rfl).reads_both_first dependsOnBoth_aluOr,
        (Computes.of_aluBinary (k := .xor) fun _ _ _ => rfl).reads_both_first dependsOnBoth_aluXor,
        (Computes.of_aluBinary (k := .shl) fun _ _ _ => rfl).reads_both_first dependsOnBoth_aluShl,
        (Computes.of_aluBinary (k := .shr) fun _ _ _ => rfl).reads_both_first dependsOnBoth_aluShr,
        List.forall_mem_nil _⟩
  case not =>
    cases (exec_not_regByte r s).symm.trans h
    exact ⟨reg_setReg_advance_same .., onlyWrites_setReg_advance ..⟩
  case cmp =>
    cases (exec_cmp_regByte r q s).symm.trans h
    rfl

end Sys2Proof.Machine

/-! The proofs about the output stream (spec 42_register_and_output.md): what an instruction appends to it, and that
none reads it. -/

namespace Sys2Proof.Machine

/-- The state with another output stream. -/
def State.withOut (s : State) (o : List Event) : State := { s with out := o }

@[simp] theorem State.withOut_pc (s : State) (o : List Event) : (s.withOut o).pc = s.pc := rfl
@[simp] theorem State.withOut_memRead (s : State) (o : List Event) (addr : Nat) :
    (s.withOut o).memRead addr = s.memRead addr := rfl

/-- How many events an instruction of the kind emits when it completes (R102). -/
def eventCount (k : Kind) : Nat := if k = .prn ∨ k = .pra then 1 else 0

/-- `answer o` is what the instruction answers from `s` with the output stream `o`. Either it raises one and the same
error for every `o`, or it completes for every `o` with one and the same state but for the stream, which is `o` with
the same `n` events after it. -/
def Appends (n : Nat) (s : State) (answer : List Event → Result) : Prop :=
  (∃ e, ∀ o, answer o = .next ((s.withOut o).raise e)) ∨
  (∃ (t : State) (evs : List Event), t.err = s.err ∧ evs.length = n ∧ ∀ o, answer o = .next (t.withOut (o ++ evs)))

section
variable {n : Nat} {s : State}

/-! ### The shared operations -/

theorem Appends.raises {answer : List Event → Result} (e : MachineError)
    (h : ∀ o, answer o = (s.withOut o).fail e) : Appends n s answer :=
  .inl ⟨e, h⟩

/-- An instruction that completes and leaves the stream alone. -/
theorem Appends.silent {answer : List Event → Result} (t : State) (ht : t.err = s.err)
    (h : ∀ o, answer o = .next (t.withOut o)) : Appends 0 s answer :=
  .inr ⟨t, [], ht, rfl, fun o => by rw [h, List.append_nil]⟩

theorem Appends.emits (ev : Event) : Appends 1 s fun o => .next (((s.withOut o).emit ev).advance 1) :=
  .inr ⟨s.advance 1, [ev], rfl, rfl, fun _ => rfl⟩

theorem Appends.writesReg (r : Fin 8) (v : Byte) (k : Nat) :
    Appends 0 s fun o => .next (((s.withOut o).setReg r v).advance k) :=
  Appends.silent ((s.setReg r v).advance k) rfl fun _ => rfl

/-- The operand checks do not read the stream. -/
theorem Appends.usingReg {a : Byte} {go : List Event → Fin 8 → Result} (h : ∀ r, Appends n s fun o => go o r) :
    Appends n s fun o => usingReg a (s.withOut o) (go o) := by
  obtain ⟨r, rfl⟩ | ha := regByte_or_large a
  · simpa only [usingReg_regByte] using h r
  · exact Appends.raises (.outOfBounds .register a.toNat s.pc) fun o => usingReg_large ha (go o)

theorem Appends.usingRegs {a b : Byte} {go : List Event → Fin 8 → Fin 8 → Result}
    (h : ∀ r q, Appends n s fun o => go o r q) : Appends n s fun o => usingRegs a b (s.withOut o) (go o) :=
  Appends.usingReg fun r => Appends.usingReg fun q => h r q

theorem Appends.usingNextByte {go : List Event → Byte → Result} (h : ∀ b, Appends n s fun o => go o b) :
    Appends n s fun o => usingNextByte (s.withOut o) (go o) := by
  simp only [Machine.usingNextByte, State.withOut_pc, State.withOut_memRead]
  cases s.memRead (s.pc + 2) with
  | ok b => exact h b
  | error e => exact Appends.raises e fun _ => rfl

/-- A branch whose condition does not read the stream. -/
theorem Appends.branch {c : Prop} [Decidable c] {x y : List Event → Result} (hx : Appends n s x) (hy : Appends n s y) :
    Appends n s fun o => if c then x o else y o := by
  by_cases h : c
  · simpa only [if_pos h] using hx
  · simpa only [if_neg h] using hy

theorem Appends.aluBinary (f : Byte → Byte → Byte) (a b : Byte) :
    Appends 0 s fun o => aluBinary f a b (s.withOut o) :=
  Appends.usingRegs fun r q => Appends.writesReg r (f (s.reg r) (s.reg q)) 2

theorem Appends.aluDivision (f : Byte → Byte → Byte) (a b : Byte) :
    Appends 0 s fun o => aluDivision f a b (s.withOut o) :=
  Appends.usingRegs fun r q =>
    Appends.branch (c := s.reg q = 0) (Appends.raises (.divisionByZero s.pc) fun _ => rfl)
      (Appends.writesReg r (f (s.reg r) (s.reg q)) 2)

theorem Appends.jumpReg (a : Byte) : Appends 0 s fun o => jumpReg a (s.withOut o) :=
  Appends.usingReg fun r => Appends.silent (s.jumpTo (s.reg r)) rfl fun _ => rfl

theorem Appends.fallThrough : Appends 0 s fun o => fallThrough (s.withOut o) :=
  Appends.silent { s with pc := s.pc + 2 } rfl fun _ => rfl

end

/-! ### Every instruction -/

/-- R102: PRN and PRA append one event when they complete, the others none, and what is appended does not depend on
the stream. -/
theorem exec_appends (i : Instr) (s : State) : Appends (eventCount i.kind) s fun o => exec i (s.withOut o) := by
  cases i with
  | hlt => exact Appends.silent { s with running := false, pc := 0 } rfl fun _ => rfl
  | ldi a imm => exact Appends.usingReg fun r => Appends.writesReg r imm 2
  | st a b => exact Appends.usingRegs fun r q => Appends.writesReg r (s.reg q) 2
  | prn a => exact Appends.usingReg fun r => Appends.emits (.dec (s.reg r))
  | pra a => exact Appends.usingNextByte fun b => Appends.usingReg fun r => Appends.emits (.char (s.reg r))
  | push a =>
    exact Appends.usingReg fun r =>
      Appends.silent ((s.decSp.store s.decSp.sp (s.decSp.reg r)).advance 1) rfl fun _ => rfl
  | pop a =>
    exact Appends.usingReg fun r => Appends.silent ((s.setReg r (s.load s.sp)).incSp.advance 1) rfl fun _ => rfl
  | jmp a => exact Appends.jumpReg a
  | jeq a => exact Appends.branch (c := s.flags.e = true) (Appends.jumpReg a) Appends.fallThrough
  | jne a => exact Appends.branch (c := s.flags.e = true) Appends.fallThrough (Appends.jumpReg a)
  | call a =>
    exact Appends.usingReg fun r =>
      Appends.branch (c := s.pc + 2 > 255)
        (Appends.raises (.outOfBounds .memory (s.pc + 2) s.pc) fun _ => rfl)
        (Appends.silent ((s.decSp.store s.decSp.sp (wrap8 (s.pc + 2))).jumpTo (s.decSp.reg r)) rfl fun _ => rfl)
  | ret => exact Appends.silent (s.incSp.jumpTo (s.load s.sp)) rfl fun _ => rfl
  | add a b => exact Appends.aluBinary _ a b
  | sub a b => exact Appends.aluBinary _ a b
  | mul a b => exact Appends.aluBinary _ a b
  | div a b => exact Appends.aluDivision _ a b
  | mod a b => exact Appends.aluDivision _ a b
  | and a b => exact Appends.aluBinary _ a b
  | or a b => exact Appends.aluBinary _ a b
  | xor a b => exact Appends.aluBinary _ a b
  | not a => exact Appends.usingReg fun r => Appends.writesReg r (aluNot (s.reg r)) 1
  | shl a b => exact Appends.aluBinary _ a b
  | shr a b => exact Appends.aluBinary _ a b
  | cmp a b =>
    exact Appends.usingRegs fun r q =>
      Appends.silent (({ s with flags := compareFlags (s.reg r) (s.reg q) } : State).advance 2) rfl fun _ => rfl

/-- Settles O10: the instruction either raises or completes for every stream alike, and the given state is the one
with its own stream. -/
theorem outputStreamIsAppendOnly : Obligations.OutputStreamIsAppendOnly := by
  intro i s t hs h
  obtain ⟨e, hall⟩ | ⟨u, evs, hu, hlen, hall⟩ := exec_appends i s
  · cases h.symm.trans (hall s.out)
    refine ⟨fun hnone => absurd hnone (Option.some_ne_none e), fun _ => rfl, fun o => (hall o).trans ?_⟩
    simp [State.withOut, State.raise]
  · cases h.symm.trans (hall s.out)
    refine ⟨fun _ => ⟨evs, rfl, hlen⟩, fun hsome => absurd (hu.trans hs) hsome, fun o => (hall o).trans ?_⟩
    simp [State.withOut]

end Sys2Proof.Machine

/-! The proofs about the decoder (spec 30_encoding.md sections 1 to 3): what it answers for each first byte, and that
it gives an encoded instruction back. -/

namespace Sys2Proof

variable {rom : OpcodeMap} {k : Kind} {tail : List Byte}

/-! ### What the decoder answers -/

/-- R65, R118: a first byte that is no entry is Invalid, however many bytes follow. -/
theorem decodeWith_invalid {ir : Byte} (h : ∀ k, rom k ≠ ir) (tail : List Byte) :
    decodeWith rom (ir :: tail) = .error (.invalidOpcode ir) := by
  simp only [decodeWith, lookupRom_none.mpr h]

/-- A known first byte with an operand byte missing. -/
theorem decodeWith_truncated (inj : ∀ k l, rom k = rom l → k = l) (h : tail.length < operandCount (rom k)) :
    decodeWith rom (rom k :: tail) = .error (.truncated (1 + tail.length)) := by
  simp only [decodeWith, lookupRom_self inj, if_pos h]

/-- A known first byte with all its operand bytes there. -/
theorem decodeWith_complete (inj : ∀ k l, rom k = rom l → k = l) (h : operandCount (rom k) ≤ tail.length) :
    decodeWith rom (rom k :: tail) =
      .ok (k.instr (tail.getD 0 0) (tail.getD 1 0), tail.drop (operandCount (rom k))) := by
  simp only [decodeWith, lookupRom_self inj, if_neg (Nat.not_lt.mpr h)]

/-! ### Decoding an encoding -/

/-- The first two bytes from the operands on, as far as the kind declares them, are the operands. -/
theorem Instr.instr_operands_append (i : Instr) (rest : List Byte) :
    i.kind.instr ((i.operands ++ rest).getD 0 0) ((i.operands ++ rest).getD 1 0) = i := by
  cases i <;> rfl

/-- R57: the opcode byte counts the instruction's operand bytes. -/
theorem OpcodeMap.Conforms.operandCount_eq_length (hrom : rom.Conforms) (i : Instr) :
    operandCount (rom i.kind) = i.operands.length := by
  obtain ⟨hcount, -, -, -⟩ := hrom
  rw [hcount, i.operands_length]

/-- R55: an instruction is at most three bytes long. -/
theorem OpcodeMap.Conforms.encodeWith_length_le_three (hrom : rom.Conforms) (i : Instr) :
    (encodeWith rom i).length ≤ 3 := by
  rw [hrom.encodeWith_length, hrom.operandCount_eq_length, i.operands_length]
  have := i.kind.arity_le_two
  omega

/-- The bytes of an instruction decode to it, and those after them are left. -/
theorem OpcodeMap.Conforms.decodeWith_encodeWith_append (hrom : rom.Conforms) (i : Instr) (rest : List Byte) :
    decodeWith rom (encodeWith rom i ++ rest) = .ok (i, rest) := by
  have hlen := hrom.operandCount_eq_length i
  obtain ⟨-, -, -, inj⟩ := hrom
  rw [encodeWith, List.cons_append, decodeWith_complete inj (by simp [hlen]), i.instr_operands_append, hlen,
    List.drop_left]

/-- Settles O15: the opcode byte finds its kind, and the operand bytes it counts are the instruction's own. -/
theorem decodeOfEncodeIsIdentity : Obligations.DecodeOfEncodeIsIdentity :=
  fun _ hrom i rest => hrom.decodeWith_encodeWith_append i rest

/-- Settles O18: each word is decoded under the default map. -/
theorem romWordsDecode : Obligations.RomWordsDecode :=
  ⟨rfl, rfl, rfl, rfl, rfl, rfl, rfl, rfl, rfl, rfl, rfl⟩

/-! ### An instruction's kind and its operands -/

/-- R58. -/
theorem setsPcDirectly_eq_bit : ∀ ir : Byte, setsPcDirectly ir = (((ir >>> 4) &&& 1) == 1) := by decide

/-- R58, R64 (b). -/
theorem Kind.isTransfer_iff (k : Kind) :
    k.isTransfer = true ↔ k = .call ∨ k = .ret ∨ k = .jmp ∨ k = .jeq ∨ k = .jne := by
  cases k <;> decide

theorem Instr.kind_eq_hlt_iff (i : Instr) : i.kind = .hlt ↔ i = .hlt := by
  cases i <;> simp [Instr.kind]

/-- R16: an operand byte of 8 or more names no register. -/
theorem isRegIndex_eq_false {a : Byte} (h : 8 ≤ a.toNat) : isRegIndex a = false := by
  simp [isRegIndex, Nat.not_lt.mpr h]

end Sys2Proof

/-! The proofs about the machine's invariant (spec 10_state.md, 60_exceptions.md section 3): reset and the loader
establish it, every step keeps it, and a step ends the run by HLT or by an error only. -/

namespace Sys2Proof.Machine

variable {rom : OpcodeMap} {s t : State}

/-! ### What a step leaves -/

/-- R78: there is no next state while `running = 0`. -/
theorem cycle_of_not_running (h : s.running = false) : cycle rom s = .fault .halted := by
  simp [cycle, h]

/-- The three ways a step from `s` to `t` ends: `t` records an error at the instruction, an HLT stops the machine, or
an instruction that lies below 256 completes. -/
def StepEnds (rom : OpcodeMap) (s t : State) : Prop :=
  (∃ e : MachineError, e.pc = s.pc ∧ t = s.raise e) ∨
  (s.mem.read s.pc = rom .hlt ∧ t = { s with running := false, pc := 0 }) ∨
  (∃ i, s.pc + 1 + operandCount (rom i.kind) ≤ 256 ∧ Completed i s t)

/-- Everything a step with a next state can have done. -/
theorem cycle_next (h : cycle rom s = .next t) : s.running = true ∧ StepEnds rom s t := by
  have hrun : s.running = true := by
    by_contra hstop
    cases (cycle_of_not_running (Bool.eq_false_of_not_eq_true hstop)).symm.trans h
  refine ⟨hrun, ?_⟩
  obtain ⟨e, he, h'⟩ | ⟨i, h', hbyte, hfit⟩ := cycle_cases rom hrun <;> rw [h'] at h
  · cases h
    exact .inl ⟨e, he, rfl⟩
  · obtain ⟨e, he, hi⟩ | ⟨rfl, hi⟩ | ⟨u, hi, hu⟩ := exec_cases i s <;> cases hi.symm.trans h
    · exact .inl ⟨e, he, rfl⟩
    · exact .inr (.inl ⟨hbyte, rfl⟩)
    · exact .inr (.inr ⟨i, hfit, hu⟩)

/-! ### The invariant -/

/-- In a running machine without an error only the memory, `pc` and the flags are constrained. -/
theorem State.Inv.of_running (hmem : s.mem.wf = true) (hpc : s.pc ≤ 256) (hflags : s.flags.atMostOne = true)
    (hrun : s.running = true) (herr : s.err = none) : s.Inv where
  memory := hmem
  pcRange := hpc
  oneFlag := hflags
  errorHalts e he := by simp [herr] at he
  haltedAtZero hstop := by simp [hrun] at hstop

/-- R119: a running machine has recorded no error. -/
theorem State.Inv.err_eq_none (hs : s.Inv) (hrun : s.running = true) : s.err = none := by
  cases herr : s.err with
  | none => rfl
  | some e => exact absurd (hs.errorHalts e herr).1 (by simp [hrun])

/-- R119, R121: an error recorded at `pc` keeps the invariant. -/
theorem State.Inv.raise (hs : s.Inv) {e : MachineError} (he : e.pc = s.pc) : (s.raise e).Inv where
  memory := hs.memory
  pcRange := hs.pcRange
  oneFlag := hs.oneFlag
  errorHalts e' he' := by
    cases he'
    exact ⟨rfl, he⟩
  haltedAtZero _ hnone := absurd hnone (Option.some_ne_none e)

/-- R96: the halt of a machine without an error keeps the invariant. -/
theorem State.Inv.halt (hs : s.Inv) (herr : s.err = none) : ({ s with running := false, pc := 0 } : State).Inv where
  memory := hs.memory
  pcRange := Nat.zero_le _
  oneFlag := hs.oneFlag
  errorHalts e he := absurd (herr.symm.trans he) (Option.some_ne_none e).symm
  haltedAtZero _ _ := rfl

/-- A push writes inside the address space, so the memory stays canonical. -/
theorem Completed.mem_wf {i : Instr} (ht : Completed i s t) (hs : s.mem.wf = true) : t.mem.wf = true := by
  obtain hmem | ⟨-, v, hmem⟩ := ht.mem <;> rw [hmem]
  · exact hs
  · exact Memory.wf_write v hs s.pushSlot.isLt

/-- R26: what an instruction leaves in the flags has at most one bit set. -/
theorem Completed.flags_atMostOne {i : Instr} (ht : Completed i s t) (hs : s.flags.atMostOne = true) :
    t.flags.atMostOne = true := by
  obtain hf | ⟨-, x, y, hf⟩ := ht.flags <;> rw [hf]
  · exact hs
  · simp [Flags.atMostOne, compareFlags_count]

/-- D4: an instruction that lies below 256 leaves `pc` at most 256. -/
theorem Completed.pc_le {i : Instr} (ht : Completed i s t) (hfit : s.pc + 1 + i.kind.arity ≤ 256) : t.pc ≤ 256 := by
  obtain hpc | hpc := ht.pc <;> omega

/-- Each of the three ways a step ends keeps the invariant. -/
theorem cycle_keeps_inv (hrom : rom.Conforms) (hs : s.Inv) (h : cycle rom s = .next t) : t.Inv := by
  obtain ⟨hcount, -, -, -⟩ := hrom
  obtain ⟨hrun, ⟨e, he, rfl⟩ | ⟨-, rfl⟩ | ⟨i, hfit, ht⟩⟩ := cycle_next h
  · exact hs.raise he
  · exact hs.halt (hs.err_eq_none hrun)
  · rw [hcount] at hfit
    exact .of_running (ht.mem_wf hs.memory) (ht.pc_le hfit) (ht.flags_atMostOne hs.oneFlag)
      (ht.running.trans hrun) (ht.err.trans (hs.err_eq_none hrun))

/-- Settles O4: the default map is a conforming one. -/
theorem stepKeepsMachineInvariant : Obligations.StepKeepsMachineInvariant :=
  ⟨fun _ hrom _ _ hs h => cycle_keeps_inv hrom hs h, fun _ _ hs h => cycle_keeps_inv opcodeByte_conforms hs h⟩

/-- Settles O3: reset leaves an empty memory list, a running machine, no error and clear flags. -/
theorem resetMeetsMachineInvariant : Obligations.ResetMeetsMachineInvariant :=
  .of_running rfl (by decide) rfl rfl rfl

/-- Settles O2: the image is placed in the reset machine, and a list of more than 256 bytes is refused. -/
theorem launchStateOrRefusal : Obligations.LaunchStateOrRefusal := by
  refine fun entry image => ⟨fun h => ⟨_, launch_of_fits entry h, ?_, rfl, rfl, rfl, rfl, rfl⟩, fun h => if_pos h⟩
  exact .of_running (Memory.wf_place 0 image rfl) entry.isLt.le rfl rfl rfl

/-! ### How a run ends -/

/-- Settles O7: of the three ways a step ends, two clear `running`, and one of these records an error. -/
theorem stepHaltsOnlyByHltOrPreciseError : Obligations.StepHaltsOnlyByHltOrPreciseError := by
  intro s t hs h
  obtain ⟨hrun, ⟨e, he, rfl⟩ | ⟨hbyte, rfl⟩ | ⟨i, -, ht⟩⟩ := cycle_next h
  · exact ⟨fun _ => .inr ⟨e, he, ⟨rfl, rfl⟩, rfl⟩, fun _ => rfl⟩
  · exact ⟨fun _ => .inl ⟨hbyte, ⟨rfl, hs, rfl⟩, rfl⟩, fun _ => rfl⟩
  · refine ⟨fun hstop => absurd (ht.running.trans hrun) (by simp [hstop]), fun herr => ?_⟩
    exact absurd (ht.err.trans hs) herr

/-- Settles O5: the cycle under the default map asks for `running` first. -/
theorem noStepWhileHalted : Obligations.NoStepWhileHalted := fun _ h => cycle_of_not_running h

/-- Every instruction has a next state, errors included (R119). -/
theorem exec_has_next (i : Instr) (s : State) : ∃ t, exec i s = .next t := by
  obtain ⟨e, -, h⟩ | ⟨-, h⟩ | ⟨t, h, -⟩ := exec_cases i s
  · exact ⟨_, h⟩
  · exact ⟨_, h⟩
  · exact ⟨t, h⟩

/-- Settles O6: the fetch raises an error, which is a next state, or an instruction runs. -/
theorem runningMachineAlwaysSteps : Obligations.RunningMachineAlwaysSteps := by
  intro rom s hrun
  obtain ⟨e, -, h⟩ | ⟨i, h, -⟩ := cycle_cases rom hrun
  · exact ⟨_, h⟩
  · rw [h]
    exact exec_has_next i s

end Sys2Proof.Machine

/-! The proofs about the fetch and the decode stage (spec 30_encoding.md section 5): the bytes fetched, the instruction
they run, and the errors of the fetch. -/

namespace Sys2Proof.Machine

variable {rom : OpcodeMap} {s : State} {i : Instr} {k : Kind}

/-! ### From the decoder's answer to the step -/

/-- R71: the instruction that the fetched bytes decode to is the one that runs. -/
theorem cycle_of_decode {rest : List Byte} (hrun : s.running = true)
    (h : decodeWith rom (fetchWindow s) = .ok (i, rest)) : cycle rom s = exec i s := by
  simp only [cycle, if_pos hrun, fetchDecode, h]

/-- R114. -/
theorem cycle_of_decode_invalid {ir : Byte} (hrun : s.running = true)
    (h : decodeWith rom (fetchWindow s) = .error (.invalidOpcode ir)) :
    cycle rom s = s.fail (.invalidOpcode s.pc ir) := by
  simp only [cycle, if_pos hrun, fetchDecode, h]

/-- R72, R73: the address of the missing byte is recorded. -/
theorem cycle_of_decode_truncated {got : Nat} (hrun : s.running = true)
    (h : decodeWith rom (fetchWindow s) = .error (.truncated got)) :
    cycle rom s = s.fail (.outOfBounds .memory (s.pc + got) s.pc) := by
  simp only [cycle, if_pos hrun, fetchDecode, h]

/-- Settles O19: the step is the cycle under the default map. -/
theorem stepRunsDecodedInstruction : Obligations.StepRunsDecodedInstruction :=
  fun _ _ _ hrun h => cycle_of_decode hrun h

/-! ### The bytes fetched -/

/-- With `pc` in memory the byte there is fetched first. -/
theorem fetchWindow_eq_cons (h : s.pc ≤ 255) : ∃ tail, fetchWindow s = s.mem.read s.pc :: tail :=
  ⟨_, (s.bytesFrom_succ s.pc 2).trans (if_pos h)⟩

/-- A list of at most three bytes that stands in memory at `pc`, all of it below 256, is fetched first. -/
theorem fetchWindow_eq_append {bytes : List Byte} (hmax : bytes.length ≤ 3) (hfit : s.pc + bytes.length ≤ 256)
    (hread : ∀ j (h : j < bytes.length), s.mem.read (s.pc + j) = bytes[j]) :
    ∃ rest, fetchWindow s = bytes ++ rest := by
  have hlen : bytes.length ≤ (fetchWindow s).length := by
    rw [fetchWindow_length]
    omega
  have htake : (fetchWindow s).take bytes.length = bytes :=
    List.ext_getElem (by simp [hlen]) fun j _ hj => by rw [List.getElem_take, fetchWindow_getElem, hread j hj]
  have h := List.take_append_drop bytes.length (fetchWindow s)
  rw [htake] at h
  exact ⟨_, h.symm⟩

/-- An instruction in memory at `pc` is the one that runs. -/
theorem cycle_of_instructionAt (hrom : rom.Conforms) (hrun : s.running = true) (hat : InstructionAt rom i s) :
    cycle rom s = exec i s := by
  obtain ⟨hfit, hread⟩ := hat
  obtain ⟨rest, hw⟩ := fetchWindow_eq_append (hrom.encodeWith_length_le_three i) hfit hread
  exact cycle_of_decode hrun (hw ▸ hrom.decodeWith_encodeWith_append i rest)

/-- Settles O20: the bytes fetched begin with the encoding, which decodes to the instruction. -/
theorem cycleRunsInstructionInMemory : Obligations.CycleRunsInstructionInMemory :=
  fun _ hrom _ _ hrun hat => cycle_of_instructionAt hrom hrun hat

/-! ### The errors of the fetch -/

/-- Settles O21: the first byte fetched is Invalid whatever follows it. -/
theorem invalidOpcodeHalts : Obligations.InvalidOpcodeHalts := by
  intro rom s hrun hpc hbyte
  obtain ⟨tail, hw⟩ := fetchWindow_eq_cons hpc
  exact cycle_of_decode_invalid hrun (hw ▸ decodeWith_invalid hbyte tail)

/-- R72: past 255 nothing is fetched. -/
theorem fetchWindow_eq_nil (h : 255 < s.pc) : fetchWindow s = [] := by
  rw [← List.length_eq_zero_iff, fetchWindow_length]
  omega

/-- R73: when an operand byte lies past 255, the bytes fetched end at 255, and the missing byte is at 256. -/
theorem cycle_of_missing_operand (hrom : rom.Conforms) (hrun : s.running = true) (hpc : s.pc ≤ 255)
    (hbyte : s.mem.read s.pc = rom k) (hmiss : 255 < s.pc + operandCount (rom k)) :
    cycle rom s = s.fail (.outOfBounds .memory 256 s.pc) := by
  obtain ⟨hcount, -, -, inj⟩ := hrom
  obtain ⟨tail, hw⟩ := fetchWindow_eq_cons hpc
  have hlen := fetchWindow_length s
  have harity := k.arity_le_two
  rw [hw, List.length_cons] at hlen
  rw [hcount] at hmiss
  have hend : s.pc + (1 + tail.length) = 256 := by omega
  have hshort : tail.length < operandCount (rom k) := by
    rw [hcount]
    omega
  rw [← hend]
  exact cycle_of_decode_truncated hrun (hw ▸ hbyte ▸ decodeWith_truncated inj hshort)

/-- Settles O22: past 255 no byte is fetched, and a missing operand byte is the one at 256. -/
theorem fetchPastMemoryHalts : Obligations.FetchPastMemoryHalts := by
  refine ⟨fun rom s hrun hpc => ?_, fun rom hrom k s hrun hpc hbyte hmiss => ?_⟩
  · exact cycle_of_decode_truncated hrun (by rw [fetchWindow_eq_nil hpc]; rfl)
  · exact cycle_of_missing_operand hrom hrun hpc hbyte hmiss

/-! ### A placed word -/

/-- The decoder's answer behind the instruction of a table word. -/
theorem decode_of_decodeTableWord {nbits w : Nat} (h : decodeTableWord nbits w = some i) :
    ∃ rest, decode (tableBytes nbits w) = .ok (i, rest) := by
  simp only [decodeTableWord] at h
  cases hd : decode (tableBytes nbits w) with
  | error e => simp [hd] at h
  | ok p =>
    obtain ⟨j, rest⟩ := p
    simp only [hd, Option.some.injEq] at h
    exact ⟨rest, by rw [h]⟩

/-- Bytes placed at an address where they fit are read back one by one. -/
theorem Memory.read_place_at (m : Memory) {addr j : Nat} {bytes : List Byte} (hfit : addr + bytes.length ≤ 256)
    (hj : j < bytes.length) : (m.place addr bytes).read (addr + j) = bytes[j] := by
  rw [Memory.read_place m addr bytes _ hfit, if_pos (by omega), Nat.add_sub_cancel_left,
    List.getD_eq_getElem _ _ hj]

/-- The three bytes of a placed word are the ones fetched. -/
theorem fetchWindow_withFetchWord (nbits w : Nat) (hpc : s.pc ≤ 253) :
    fetchWindow (s.withFetchWord nbits w) = tableBytes nbits w := by
  have hlen : (tableBytes nbits w).length = 3 := rfl
  have hfit : s.pc + (tableBytes nbits w).length ≤ 256 := by omega
  obtain ⟨rest, hw⟩ := fetchWindow_eq_append (s := s.withFetchWord nbits w) hlen.le hfit
    fun _ hj => s.mem.read_place_at hfit hj
  have hrest : rest = [] := by
    have h := fetchWindow_length (s.withFetchWord nbits w)
    rw [hw, List.length_append, hlen] at h
    exact List.eq_nil_of_length_eq_zero (by omega)
  rw [hw, hrest, List.append_nil]

/-- Settles O23: the word's bytes are fetched, and the machine is running. -/
theorem placedWordIsFetched : Obligations.PlacedWordIsFetched := by
  intro s nbits w i hpc h
  obtain ⟨rest, hd⟩ := decode_of_decodeTableWord h
  exact cycle_of_decode (rest := rest) rfl (by rw [fetchWindow_withFetchWord nbits w hpc]; exact hd)

end Sys2Proof.Machine

/-! The frame of a state update (spec 10_state.md, 20_memory.md), and the proofs about the stack: PUSH, POP, CALL and
RET (spec 43_stack.md, 44_control_transfer.md). -/

namespace Sys2Proof.Machine

variable {s t : State} {ws : List (Fin 8)} {as : List Nat}

/-! ### Frames

Each update keeps a frame that names what it writes, so a frame is built along the updates of an instruction. -/

theorem OnlyWrites.refl (ws : List (Fin 8)) (as : List Nat) (s : State) : OnlyWrites ws as s s :=
  ⟨fun _ _ => rfl, fun _ _ => rfl, rfl, rfl, rfl, rfl⟩

theorem OnlyWrites.regsKeptBut (h : OnlyWrites ws as s t) : RegsKeptBut ws s t := h.1

theorem OnlyWrites.memoryKeptBut (h : OnlyWrites ws as s t) : MemoryKeptBut as s t := h.2.1

theorem OnlyWrites.setReg (h : OnlyWrites ws as s t) {r : Fin 8} (hr : r ∈ ws) (v : Byte) :
    OnlyWrites ws as s (t.setReg r v) := by
  obtain ⟨hregs, hrest⟩ := h
  refine ⟨fun x hx => ?_, hrest⟩
  rw [State.reg_setReg, if_neg (ne_of_mem_of_not_mem hr hx).symm, hregs x hx]

theorem OnlyWrites.store (h : OnlyWrites ws as s t) {addr : Byte} (haddr : addr.toNat ∈ as) (v : Byte) :
    OnlyWrites ws as s (t.store addr v) := by
  obtain ⟨hregs, hmem, hrest⟩ := h
  refine ⟨hregs, fun x hx => ?_, hrest⟩
  rw [State.store_mem, Memory.read_write, if_neg (ne_of_mem_of_not_mem haddr hx).symm, hmem x hx]

theorem OnlyWrites.advance (h : OnlyWrites ws as s t) (n : Nat) : OnlyWrites ws as s (t.advance n) := h

theorem OnlyWrites.jumpTo (h : OnlyWrites ws as s t) (v : Byte) : OnlyWrites ws as s (t.jumpTo v) := h

/-! ### A push and a pop -/

/-- What PUSH and CALL do to SP and memory: SP is decremented and the byte stored at the new SP (R103). -/
def State.pushByte (s : State) (v : Byte) : State := s.decSp.store s.decSp.sp v

/-- What POP and RET do to SP after the byte is read (R103); POP has written its register `r` before. -/
def State.popInto (s : State) (r : Fin 8) : State := (s.setReg r (s.load s.sp)).incSp

@[simp] theorem State.pushByte_pc (v : Byte) : (s.pushByte v).pc = s.pc := rfl

@[simp] theorem State.pushByte_sp (v : Byte) : (s.pushByte v).sp = s.pushSlot := State.decSp_sp s

@[simp] theorem State.pushByte_reg (v : Byte) (x : Fin 8) : (s.pushByte v).reg x = s.decSp.reg x := rfl

/-- The byte pushed is the byte at the new SP. -/
@[simp] theorem State.pushByte_read (v : Byte) : (s.pushByte v).mem.read s.pushSlot.toNat = v := by
  simp [State.pushByte]

theorem onlyWrites_pushByte (s : State) (v : Byte) : OnlyWrites [7] [s.pushSlot.toNat] s (s.pushByte v) :=
  ((OnlyWrites.refl _ _ s).setReg (List.mem_singleton_self 7) _).store (by simp) v

theorem onlyWrites_popInto (s : State) (r : Fin 8) : OnlyWrites [r, 7] [] s (s.popInto r) :=
  ((OnlyWrites.refl _ _ s).setReg (by simp) _).setReg (r := 7) (by simp) _

theorem onlyWrites_incSp (s : State) : OnlyWrites [7] [] s s.incSp :=
  (OnlyWrites.refl _ _ s).setReg (List.mem_singleton_self 7) _

/-- D5: SP less one, modulo 256. -/
theorem State.pushSlot_toNat (s : State) : (s.pushSlot.toNat : Int) = ((s.sp.toNat : Int) - 1) % 256 := wrap8Int_toNat _

/-- The increment of a pop takes back the decrement of a push, also where it wraps. -/
theorem State.wrap8_pushSlot_add_one (s : State) : wrap8 (s.pushSlot.toNat + 1) = s.sp := by
  apply BitVec.eq_of_toNat_eq
  have hslot := s.pushSlot_toNat
  have hsp := s.sp.isLt
  rw [wrap8_toNat]
  omega

/-! ### The four instructions -/

/-- R104: the register is read after the decrement. -/
theorem exec_push_regByte (r : Fin 8) (s : State) :
    exec (.push (regByte r)) s = .next ((s.pushByte (s.decSp.reg r)).advance 1) := usingReg_regByte r _

/-- R105. -/
theorem exec_pop_regByte (r : Fin 8) (s : State) : exec (.pop (regByte r)) s = .next ((s.popInto r).advance 1) :=
  usingReg_regByte r _

/-- R110: with room for the return address it is pushed, and the target is read after the decrement. -/
theorem exec_call_regByte (r : Fin 8) (h : s.pc ≤ 253) :
    exec (.call (regByte r)) s = .next ((s.pushByte (wrap8 (s.pc + 2))).jumpTo (s.decSp.reg r)) :=
  (usingReg_regByte r _).trans (if_neg (by omega))

/-- R111. -/
theorem exec_ret (s : State) : exec .ret s = .next (s.incSp.jumpTo (s.load s.sp)) := rfl

/-- Settles O31: the register read after the decrement is the new SP for R7 and the old value otherwise. -/
theorem pushStoresAtDecrementedSp : Obligations.PushStoresAtDecrementedSp := by
  refine fun r s => ⟨_, exec_push_regByte r s, ?_, ?_, ?_, (onlyWrites_pushByte s _).advance 1, rfl⟩
  · simpa using s.pushSlot_toNat
  · simp
  · simp

/-- Settles O32: SP is incremented after the register is written, so for R7 the popped byte is incremented. -/
theorem popLoadsThenIncrementsSp : Obligations.PopLoadsThenIncrementsSp := by
  refine fun r s => ⟨_, exec_pop_regByte r s, fun hr => ?_, ?_, (onlyWrites_popInto s r).advance 1, rfl⟩
  · simp [State.popInto, hr, State.load]
  · simp [State.popInto, State.load, eq_comm]

/-- Settles O35: the return address is a byte, and the target is the new SP for R7. -/
theorem callPushesReturnAddress : Obligations.CallPushesReturnAddress := by
  refine fun r s hpc => ⟨_, exec_call_regByte r hpc, ?_, ?_, ?_, (onlyWrites_pushByte s _).jumpTo _, ?_⟩
  · simpa using s.pushSlot_toNat
  · simp
  · rw [State.jumpTo_mem, State.pushByte_read, wrap8_toNat_of_lt (by omega)]
  · simp

/-- Settles O36: the byte is read before SP is incremented. -/
theorem retPopsPc : Obligations.RetPopsPc :=
  fun s => ⟨_, exec_ret s, rfl, by simp, (onlyWrites_incSp s).jumpTo _⟩

/-! ### A push and the pop that takes it back -/

/-- Settles O44: the pop reads the byte pushed, which the register still holds, and SP returns. -/
theorem pushThenPopRestores : Obligations.PushThenPopRestores := by
  intro r s t u hr hpush hpop
  cases (exec_push_regByte r s).symm.trans hpush
  cases (exec_pop_regByte r _).symm.trans hpop
  refine ⟨fun x => ?_, ?_, (onlyWrites_pushByte s _).memoryKeptBut, rfl⟩
  · by_cases hx : x = 7
    · simp [State.popInto, hx, hr.symm, s.wrap8_pushSlot_add_one, State.sp_eq s]
    · by_cases hxr : x = r <;> simp [State.popInto, State.load, hx, hxr, hr]
  · simp [State.popInto, hr]

/-- Settles O45: RET reads the address that CALL stored at the SP it left, and SP returns. -/
theorem callThenRetReturns : Obligations.CallThenRetReturns := by
  intro r s t u v hpc hcall hsp htop hret
  cases (exec_call_regByte r hpc).symm.trans hcall
  cases (exec_ret u).symm.trans hret
  simp only [State.jumpTo_sp, State.jumpTo_mem, State.pushByte_sp, State.pushByte_read] at hsp htop
  constructor
  · rw [State.jumpTo_pc, State.load, htop, wrap8_toNat_of_lt (by omega)]
  · rw [State.jumpTo_sp, State.incSp_sp, hsp, s.wrap8_pushSlot_add_one]

end Sys2Proof.Machine

/-! The proof about the representation of memory (spec 20_memory.md R36; log entry 5): a canonical list is the only
one with its reads. -/

namespace Sys2Proof.Machine

variable {m m' : Memory} {lo a : Nat} {v : Byte}

theorem Memory.read_cons_same (m : Memory) (a : Nat) (v : Byte) : Memory.read ((a, v) :: m) a = v := if_pos rfl

theorem Memory.read_cons_ne (m : Memory) (v : Byte) {x : Nat} (h : a ≠ x) : Memory.read ((a, v) :: m) x = m.read x :=
  if_neg h

/-- A memory lists no address below its bound, so it reads 0 there. -/
theorem Memory.read_below (hm : Memory.wfFrom lo m = true) {x : Nat} (hx : x < lo) : m.read x = 0 := by
  induction m generalizing lo with
  | nil => rfl
  | cons c rest ih =>
    obtain ⟨a, v⟩ := c
    obtain ⟨hlo, -, -, hrest⟩ := Memory.wfFrom_cons.mp hm
    rw [Memory.read_cons_ne rest v (by omega)]
    exact ih hrest (by omega)

/-- The two memories give the same byte at each of the 256 addresses. -/
def Memory.Alike (m m' : Memory) : Prop := ∀ addr, addr < 256 → m.read addr = m'.read addr

/-- A memory whose first entry lies below everything another lists reads otherwise at that entry, since no listed byte
is 0. -/
theorem Memory.not_alike_of_first_below (hm : Memory.wfFrom lo ((a, v) :: m) = true)
    (hm' : Memory.wfFrom (a + 1) m' = true) : ¬ Memory.Alike ((a, v) :: m) m' := by
  obtain ⟨-, ha, hv, -⟩ := Memory.wfFrom_cons.mp hm
  intro h
  have hread := h a ha
  rw [Memory.read_cons_same, Memory.read_below hm' (Nat.lt_succ_self a)] at hread
  exact hv hread

/-- Memories that begin with entries at one address and read alike have the same first byte and tails that read
alike. -/
theorem Memory.Alike.tail {v' : Byte} (hm : Memory.wfFrom lo ((a, v) :: m) = true)
    (hm' : Memory.wfFrom lo ((a, v') :: m') = true) (h : Memory.Alike ((a, v) :: m) ((a, v') :: m')) :
    v = v' ∧ Memory.Alike m m' := by
  obtain ⟨-, ha, -, hrest⟩ := Memory.wfFrom_cons.mp hm
  obtain ⟨-, -, -, hrest'⟩ := Memory.wfFrom_cons.mp hm'
  refine ⟨by simpa only [Memory.read_cons_same] using h a ha, fun x hx => ?_⟩
  by_cases hxa : a = x
  · subst hxa
    rw [Memory.read_below hrest (Nat.lt_succ_self a), Memory.read_below hrest' (Nat.lt_succ_self a)]
  · simpa only [Memory.read_cons_ne _ _ hxa] using h x hx

/-- Canonical memories that read alike are equal: their first entries are at the same address, because the lower of
two would be read as 0 in the other memory. -/
theorem Memory.eq_of_alike (hm : Memory.wfFrom lo m = true) (hm' : Memory.wfFrom lo m' = true)
    (h : Memory.Alike m m') : m = m' := by
  induction m generalizing lo m' with
  | nil =>
    cases m' with
    | nil => rfl
    | cons c' rest' => exact absurd (fun x hx => (h x hx).symm) (Memory.not_alike_of_first_below hm' rfl)
  | cons c rest ih =>
    obtain ⟨a, v⟩ := c
    cases m' with
    | nil => exact absurd h (Memory.not_alike_of_first_below hm rfl)
    | cons c' rest' =>
      obtain ⟨a', v'⟩ := c'
      obtain ⟨-, ha, hv, hrest⟩ := Memory.wfFrom_cons.mp hm
      obtain ⟨-, ha', hv', hrest'⟩ := Memory.wfFrom_cons.mp hm'
      obtain hlt | rfl | hgt := lt_trichotomy a a'
      · refine absurd h (Memory.not_alike_of_first_below hm ?_)
        exact Memory.wfFrom_cons.mpr ⟨hlt, ha', hv', hrest'⟩
      · obtain ⟨rfl, htail⟩ := Memory.Alike.tail hm hm' h
        rw [ih hrest hrest' htail]
      · refine absurd (fun x hx => (h x hx).symm) (Memory.not_alike_of_first_below hm' ?_)
        exact Memory.wfFrom_cons.mpr ⟨hgt, ha, hv, hrest⟩

/-- Settles O14: the canonical form is the listing from address 0. -/
theorem canonicalMemoryIsDeterminedByReads : Obligations.CanonicalMemoryIsDeterminedByReads :=
  fun _ _ hm hm' h => Memory.eq_of_alike hm hm' h

end Sys2Proof.Machine

/-! The proofs about the errors of the execute stage (spec 60_exceptions.md): a bad register index, a zero divisor, an
access past the end of memory. -/

namespace Sys2Proof.Machine

variable {s : State} {a b : Byte}

/-! ### Register indices -/

/-- R82: the first index is checked first. -/
theorem usingRegs_large_left (h : 8 ≤ a.toNat) (go : Fin 8 → Fin 8 → Result) :
    usingRegs a b s go = s.fail (.outOfBounds .register a.toNat s.pc) := usingReg_large h _

/-- R82: with the first index good, the second is checked. -/
theorem usingRegs_large_right (ha : a.toNat < 8) (hb : 8 ≤ b.toNat) (go : Fin 8 → Fin 8 → Result) :
    usingRegs a b s go = s.fail (.outOfBounds .register b.toNat s.pc) := by
  rw [eq_regByte_of_lt ha, usingRegs, usingReg_regByte, usingReg_large hb]

/-- The forms with one register operand begin with its check. -/
theorem exec_oneRegisterForms (a imm : Byte) (s : State) :
    ∀ i ∈ oneRegisterForms a imm, ∃ go, exec i s = usingReg a s go := by
  simp only [oneRegisterForms, List.forall_mem_cons]
  exact ⟨⟨_, rfl⟩, ⟨_, rfl⟩, ⟨_, rfl⟩, ⟨_, rfl⟩, ⟨_, rfl⟩, ⟨_, rfl⟩, ⟨_, rfl⟩, List.forall_mem_nil _⟩

/-- The forms with two register operands begin with the two checks. -/
theorem exec_twoRegisterForms (a b : Byte) (s : State) :
    ∀ i ∈ twoRegisterForms a b, ∃ go, exec i s = usingRegs a b s go := by
  simp only [twoRegisterForms, List.cons_append, List.nil_append, List.forall_mem_cons]
  exact ⟨⟨_, rfl⟩, ⟨_, rfl⟩, ⟨_, rfl⟩, ⟨_, rfl⟩, ⟨_, rfl⟩, ⟨_, rfl⟩, ⟨_, rfl⟩, ⟨_, rfl⟩, ⟨_, rfl⟩, ⟨_, rfl⟩, ⟨_, rfl⟩,
    ⟨_, rfl⟩, List.forall_mem_nil _⟩

/-! ### Conditional jumps -/

/-- R108: taken. -/
theorem exec_jeq_of_equal (a : Byte) (h : s.flags.e = true) : exec (.jeq a) s = jumpReg a s := if_pos h

/-- R108: not taken. -/
theorem exec_jeq_of_not_equal (a : Byte) (h : s.flags.e = false) : exec (.jeq a) s = fallThrough s :=
  if_neg (Bool.eq_false_iff.mp h)

/-- R109: not taken. -/
theorem exec_jne_of_equal (a : Byte) (h : s.flags.e = true) : exec (.jne a) s = fallThrough s := if_pos h

/-- R109: taken. -/
theorem exec_jne_of_not_equal (a : Byte) (h : s.flags.e = false) : exec (.jne a) s = jumpReg a s :=
  if_neg (Bool.eq_false_iff.mp h)

/-- R106: the taken jump to a register. -/
theorem jumpReg_regByte (r : Fin 8) (s : State) : jumpReg (regByte r) s = .next (s.jumpTo (s.reg r)) :=
  usingReg_regByte r _

/-! ### PRA -/

/-- R101: with the byte at `pc + 2` in memory, PRA prints the register that byte names. -/
theorem exec_pra_inside (a : Byte) (h : s.pc + 2 ≤ 255) :
    exec (.pra a) s =
      usingReg (s.mem.read (s.pc + 2)) s fun r => .next ((s.emit (.char (s.reg r))).advance 1) := by
  simp only [exec, execPra, usingNextByte, State.memRead_ok h]

/-- R101: with the byte at `pc + 2` past the end of memory, PRA raises. -/
theorem exec_pra_outside (a : Byte) (h : 255 < s.pc + 2) :
    exec (.pra a) s = s.fail (.outOfBounds .memory (s.pc + 2) s.pc) := by
  simp only [exec, execPra, usingNextByte, State.memRead_outside h]

/-- Settles O24: each form begins with the check of the index that is bad. -/
theorem badRegisterIndexHalts : Obligations.BadRegisterIndexHalts := by
  refine fun a b s => ⟨fun ha i hi => ?forms, fun ha hb i hi => ?second, fun ha he => ?jeq, fun ha he => ?jne,
    fun hin hbyte => ?pra⟩
  case forms =>
    obtain hi | hi := List.mem_append.mp hi
    · obtain ⟨go, h⟩ := exec_oneRegisterForms a b s i hi
      exact h.trans (usingReg_large ha go)
    · obtain ⟨go, h⟩ := exec_twoRegisterForms a b s i hi
      exact h.trans (usingRegs_large_left ha go)
  case second =>
    obtain ⟨go, h⟩ := exec_twoRegisterForms a b s i hi
    exact h.trans (usingRegs_large_right ha hb go)
  case jeq => exact (exec_jeq_of_equal a he).trans (usingReg_large ha _)
  case jne => exact (exec_jne_of_not_equal a he).trans (usingReg_large ha _)
  case pra => exact (exec_pra_inside a hin).trans (usingReg_large hbyte _)

/-! ### Zero divisors and the end of memory -/

/-- R115. -/
theorem aluDivision_of_zero (f : Byte → Byte → Byte) (r : Fin 8) {q : Fin 8} (h : s.reg q = 0) :
    aluDivision f (regByte r) (regByte q) s = s.fail (.divisionByZero s.pc) :=
  (usingRegs_regByte r q _).trans (if_pos h)

/-- Settles O25: both are divisions. -/
theorem divisionByZeroHalts : Obligations.DivisionByZeroHalts := by
  intro r q s h
  simp only [List.forall_mem_cons]
  exact ⟨aluDivision_of_zero aluDiv r h, aluDivision_of_zero aluMod r h, List.forall_mem_nil _⟩

/-- R110: without room for the return address, CALL raises. -/
theorem exec_call_outside (r : Fin 8) (h : 255 < s.pc + 2) :
    exec (.call (regByte r)) s = s.fail (.outOfBounds .memory (s.pc + 2) s.pc) :=
  (usingReg_regByte r _).trans (if_pos h)

/-- Settles O26: each makes the check of its address before it writes. -/
theorem callAndPraAtMemoryEndHalt : Obligations.CallAndPraAtMemoryEndHalt :=
  fun r a s h => ⟨exec_call_outside r (by omega), exec_pra_outside a (by omega)⟩

end Sys2Proof.Machine

/-! The proofs about the halt, the register moves, output and the jumps (spec 41_system.md, 42_register_and_output.md,
44_control_transfer.md). -/

namespace Sys2Proof.Machine

variable {s : State}

/-- R98. -/
theorem exec_ldi_regByte (r : Fin 8) (imm : Byte) (s : State) :
    exec (.ldi (regByte r) imm) s = .next ((s.setReg r imm).advance 2) := usingReg_regByte r _

/-- R99. -/
theorem exec_st_regByte (r q : Fin 8) (s : State) :
    exec (.st (regByte r) (regByte q)) s = .next ((s.setReg r (s.reg q)).advance 2) := usingRegs_regByte r q _

/-- R100. -/
theorem exec_prn_regByte (r : Fin 8) (s : State) :
    exec (.prn (regByte r)) s = .next ((s.emit (.dec (s.reg r))).advance 1) := usingReg_regByte r _

/-- Settles O28: HLT's meaning is that state. -/
theorem hltStopsAtZero : Obligations.HltStopsAtZero := fun _ => rfl

/-- Settles O29: each writes one register and advances. -/
theorem ldiAndStWriteOneRegister : Obligations.LdiAndStWriteOneRegister := fun r q imm s =>
  ⟨⟨_, exec_ldi_regByte r imm s, reg_setReg_advance_same .., onlyWrites_setReg_advance .., rfl⟩,
    _, exec_st_regByte r q s, reg_setReg_advance_same .., onlyWrites_setReg_advance .., rfl⟩

/-- Settles O30: PRA goes on with the register that the byte after it names. -/
theorem prnAndPraEmitOneEvent : Obligations.PrnAndPraEmitOneEvent := by
  refine fun r a s => ⟨exec_prn_regByte r s, fun hin hbyte => ?_⟩
  rw [exec_pra_inside a hin, hbyte, usingReg_regByte]
  rfl

/-- Settles O33: JMP is the taken jump. -/
theorem jmpSetsPc : Obligations.JmpSetsPc := fun r s => jumpReg_regByte r s

/-- Settles O34: E decides between the jump and the fall-through. -/
theorem conditionalJumpsFollowE : Obligations.ConditionalJumpsFollowE := fun r a _ =>
  ⟨fun he => ⟨(exec_jeq_of_equal _ he).trans (jumpReg_regByte r _), exec_jne_of_equal a he⟩,
    fun he => ⟨(exec_jne_of_not_equal _ he).trans (jumpReg_regByte r _), exec_jeq_of_not_equal a he⟩⟩

/-! ### A comparison and the jump after it -/

theorem compareFlags_of_eq {x y : Byte} (h : x = y) : (compareFlags x y).e = true := by simp [compareFlags, h]

theorem compareFlags_of_ne {x y : Byte} (h : x ≠ y) : (compareFlags x y).e = false := by
  simpa [compareFlags] using BitVec.toNat_ne.mp h

/-- Settles O41: the flags are the comparison's. -/
theorem cmpSetsUnsignedOrder : Obligations.CmpSetsUnsignedOrder := fun r q s =>
  ⟨_, exec_cmp_regByte r q s, decide_eq_true_iff, decide_eq_true_iff, decide_eq_true_iff, rfl⟩

/-- Settles O46: CMP leaves E by the equality of the two registers, and keeps every register. -/
theorem compareThenBranch : Obligations.CompareThenBranch := by
  intro r q x s t h
  cases (exec_cmp_regByte r q s).symm.trans h
  obtain ⟨hequal, hother⟩ := conditionalJumpsFollowE x (regByte x)
    (({ s with flags := compareFlags (s.reg r) (s.reg q) } : State).advance 2)
  exact ⟨fun he => hequal (compareFlags_of_eq he), fun hne => hother (compareFlags_of_ne hne)⟩

end Sys2Proof.Machine

/-! The proofs about the results of the ALU (spec 40_alu.md sections 1 to 4). -/

namespace Sys2Proof.Machine

variable {s : State} {x y : Byte}

/-! ### The operations on values -/

theorem aluAdd_toNat (x y : Byte) : (aluAdd x y).toNat = (x.toNat + y.toNat) % 256 := wrap8_toNat _

theorem aluSub_toNat (x y : Byte) : ((aluSub x y).toNat : Int) = ((x.toNat : Int) - (y.toNat : Int)) % 256 :=
  wrap8Int_toNat _

theorem aluMul_toNat (x y : Byte) : (aluMul x y).toNat = (x.toNat * y.toNat) % 256 := wrap8_toNat _

/-- R86: the quotient is a byte. -/
theorem aluDiv_toNat (x y : Byte) : (aluDiv x y).toNat = x.toNat / y.toNat :=
  wrap8_toNat_of_lt ((Nat.div_le_self _ _).trans_lt x.isLt)

/-- R87: the remainder is a byte. -/
theorem aluMod_toNat (x y : Byte) : (aluMod x y).toNat = x.toNat - y.toNat * (x.toNat / y.toNat) :=
  wrap8_toNat_of_lt ((Nat.sub_le _ _).trans_lt x.isLt)

/-- R91: the complement is a byte. -/
theorem aluNot_toNat (x : Byte) : (aluNot x).toNat = 255 - x.toNat :=
  wrap8_toNat_of_lt ((Nat.sub_le _ _).trans_lt (by decide))

theorem aluShl_toNat (x y : Byte) : (aluShl x y).toNat = (x.toNat * 2 ^ y.toNat) % 256 := wrap8_toNat _

/-- R93: the shifted value is a byte. -/
theorem aluShr_toNat (x y : Byte) : (aluShr x y).toNat = x.toNat / 2 ^ y.toNat :=
  wrap8_toNat_of_lt ((Nat.div_le_self _ _).trans_lt x.isLt)

theorem aluAdd_eq_add (x y : Byte) : aluAdd x y = x + y := by
  apply BitVec.eq_of_toNat_eq
  rw [aluAdd_toNat, BitVec.toNat_add]

theorem aluSub_eq_sub (x y : Byte) : aluSub x y = x - y := by
  apply BitVec.eq_of_toNat_eq
  have h := aluSub_toNat x y
  have hx := x.isLt
  have hy := y.isLt
  rw [BitVec.toNat_sub]
  omega

theorem aluMul_eq_mul (x y : Byte) : aluMul x y = x * y := by
  apply BitVec.eq_of_toNat_eq
  rw [aluMul_toNat, BitVec.toNat_mul]

theorem aluDiv_eq_div (x y : Byte) : aluDiv x y = x / y := by
  apply BitVec.eq_of_toNat_eq
  rw [aluDiv_toNat, BitVec.toNat_udiv]

theorem aluMod_eq_mod (x y : Byte) : aluMod x y = x % y := by
  apply BitVec.eq_of_toNat_eq
  rw [aluMod_toNat, BitVec.toNat_umod, Nat.mod_eq_sub_mul_div]

theorem aluNot_eq_not (x : Byte) : aluNot x = ~~~x := by
  apply BitVec.eq_of_toNat_eq
  rw [aluNot_toNat, BitVec.toNat_not]

theorem aluShl_eq_shiftLeft (x y : Byte) : aluShl x y = x <<< y.toNat := by
  apply BitVec.eq_of_toNat_eq
  rw [aluShl_toNat, BitVec.toNat_shiftLeft, Nat.shiftLeft_eq]

theorem aluShr_eq_ushiftRight (x y : Byte) : aluShr x y = x >>> y.toNat := by
  apply BitVec.eq_of_toNat_eq
  rw [aluShr_toNat, BitVec.toNat_ushiftRight, Nat.shiftRight_eq_div_pow]

/-- Settles O43: each operation has the bit vector operation's value; the condition on the divisor only leaves out the
error. -/
theorem aluMatchesBitVectorOperations : Obligations.AluMatchesBitVectorOperations := fun x y =>
  ⟨aluAdd_eq_add x y, aluSub_eq_sub x y, aluMul_eq_mul x y, aluNot_eq_not x, aluShl_eq_shiftLeft x y,
    aluShr_eq_ushiftRight x y, fun _ => ⟨aluDiv_eq_div x y, aluMod_eq_mod x y⟩⟩

/-- R92: no bit is left after eight places. -/
theorem aluShl_eq_zero (x : Byte) (h : 8 ≤ y.toNat) : aluShl x y = 0 :=
  (aluShl_eq_shiftLeft x y).trans (BitVec.shiftLeft_eq_zero h)

/-- R93: no bit is left after eight places. -/
theorem aluShr_eq_zero (x : Byte) (h : 8 ≤ y.toNat) : aluShr x y = 0 :=
  (aluShr_eq_ushiftRight x y).trans (BitVec.ushiftRight_eq_zero h)

/-- R87: the remainder is below the divisor. -/
theorem aluMod_lt (x : Byte) (h : y ≠ 0) : (aluMod x y).toNat < y.toNat := by
  rw [aluMod_eq_mod, BitVec.toNat_umod]
  exact Nat.mod_lt _ (Nat.pos_of_ne_zero (BitVec.toNat_ne.mp h))

/-! ### The instructions -/

/-- R82: with a non-zero divisor a division writes its function's value. -/
theorem aluDivision_of_ne_zero (f : Byte → Byte → Byte) (r : Fin 8) {q : Fin 8} (h : s.reg q ≠ 0) :
    aluDivision f (regByte r) (regByte q) s = .next ((s.setReg r (f (s.reg r) (s.reg q))).advance 2) :=
  (usingRegs_regByte r q _).trans (if_neg h)

/-- Settles O37: each writes its function's value to the destination and advances. -/
theorem addSubMulWrapModulo256 : Obligations.AddSubMulWrapModulo256 := fun r q s =>
  ⟨⟨_, aluBinary_regByte aluAdd r q s, by rw [reg_setReg_advance_same, aluAdd_toNat],
      onlyWrites_setReg_advance .., rfl⟩,
    ⟨_, aluBinary_regByte aluSub r q s, by rw [reg_setReg_advance_same, aluSub_toNat],
      onlyWrites_setReg_advance .., rfl⟩,
    _, aluBinary_regByte aluMul r q s, by rw [reg_setReg_advance_same, aluMul_toNat],
      onlyWrites_setReg_advance .., rfl⟩

/-- Settles O38: with a non-zero divisor the quotient and the remainder are bytes, so the reduction keeps them. -/
theorem divModQuotientRemainder : Obligations.DivModQuotientRemainder := fun r _ _ hq =>
  ⟨⟨_, aluDivision_of_ne_zero aluDiv r hq, by rw [reg_setReg_advance_same, aluDiv_toNat],
      onlyWrites_setReg_advance .., rfl⟩,
    _, aluDivision_of_ne_zero aluMod r hq, by rw [reg_setReg_advance_same, aluMod_toNat],
      (congrArg BitVec.toNat (reg_setReg_advance_same ..)).trans_lt (aluMod_lt _ hq), onlyWrites_setReg_advance .., rfl⟩

/-- Settles O39: each bit of the destination is the operation on that bit of the operands. -/
theorem logicalOperationsBitwise : Obligations.LogicalOperationsBitwise := fun r q s =>
  ⟨⟨_, aluBinary_regByte aluAnd r q s, fun j => by rw [reg_setReg_advance_same, aluAnd, BitVec.getLsbD_and],
      onlyWrites_setReg_advance .., rfl⟩,
    ⟨_, aluBinary_regByte aluOr r q s, fun j => by rw [reg_setReg_advance_same, aluOr, BitVec.getLsbD_or],
      onlyWrites_setReg_advance .., rfl⟩,
    ⟨_, aluBinary_regByte aluXor r q s, fun j => by rw [reg_setReg_advance_same, aluXor, BitVec.getLsbD_xor],
      onlyWrites_setReg_advance .., rfl⟩,
    _, exec_not_regByte r s, by rw [reg_setReg_advance_same, aluNot_toNat], onlyWrites_setReg_advance .., rfl⟩

/-- Settles O40: the value is exact for every count, and 0 from eight places on. -/
theorem shiftsByWholeCount : Obligations.ShiftsByWholeCount := fun r q s =>
  ⟨⟨_, aluBinary_regByte aluShl r q s, by rw [reg_setReg_advance_same, aluShl_toNat],
      fun hcount => by rw [reg_setReg_advance_same, aluShl_eq_zero _ hcount], onlyWrites_setReg_advance .., rfl⟩,
    _, aluBinary_regByte aluShr r q s, by rw [reg_setReg_advance_same, aluShr_toNat],
      fun hcount => by rw [reg_setReg_advance_same, aluShr_eq_zero _ hcount], onlyWrites_setReg_advance .., rfl⟩

end Sys2Proof.Machine

/-! The proofs about what an instruction may change, one claim over all 24 (spec 10_state.md R19, 20_memory.md R39,
30_encoding.md R75, 60_exceptions.md section 1): the registers of its family, one byte of memory, `pc`. -/

namespace Sys2Proof.Machine

variable {s t : State} {i : Instr}

/-! ### What is written and what can raise -/

/-- The instruction names a register that does not exist, or is one of the four that have an error of their own. -/
def MayRaise (i : Instr) : Prop :=
  i.wellFormed = false ∨ i.kind = .pra ∨ i.kind = .div ∨ i.kind = .mod ∨ i.kind = .call

/-- What a step that does not raise writes beside memory, flags and output: registers of the table of R19 and, unless
it is the halt or sets `pc` itself, `pc` to the address after its bytes. -/
structure Effect (i : Instr) (s t : State) : Prop where
  regs : RegsKeptBut (mayWrite i) s t
  err : t.err = s.err
  pc : i.kind ≠ .hlt → i.kind.isTransfer = false → t.pc = s.pc + 1 + i.kind.arity

/-- The instruction raises, if it may, or has its effect. -/
def Answers (i : Instr) (s : State) (r : Result) : Prop :=
  (MayRaise i ∧ ∃ e, r = .next (s.raise e)) ∨ ∃ t, r = .next t ∧ Effect i s t

/-! ### The shared operations -/

theorem Answers.raises (h : MayRaise i) (e : MachineError) : Answers i s (s.fail e) := .inl ⟨h, e, rfl⟩

/-- An index that is checked: when it names no register the instruction may raise, otherwise it goes on. -/
theorem Answers.usingReg {a : Byte} {go : Fin 8 → Result} (hbad : isRegIndex a = false → MayRaise i)
    (h : ∀ r, regIndex a = some r → Answers i s (go r)) : Answers i s (usingReg a s go) := by
  obtain ⟨r, hr, h'⟩ | ⟨ha, h'⟩ := usingReg_cases a s go <;> rw [h']
  · exact h r hr
  · exact Answers.raises (hbad (isRegIndex_eq_false ha)) _

theorem Answers.usingRegs {a b : Byte} {go : Fin 8 → Fin 8 → Result}
    (hwf : i.wellFormed = (isRegIndex a && isRegIndex b))
    (h : ∀ r q, regIndex a = some r → Answers i s (go r q)) : Answers i s (usingRegs a b s go) :=
  Answers.usingReg (fun ha => .inl (by simp [hwf, ha])) fun r hr =>
    Answers.usingReg (fun hb => .inl (by simp [hwf, hb])) fun q _ => h r q hr

/-- An instruction that writes its first operand's register and advances. -/
theorem Answers.writesReg {a : Byte} {r : Fin 8} {n : Nat} (hw : mayWrite i = (regIndex a).toList)
    (hn : i.kind.arity = n) (hr : regIndex a = some r) (v : Byte) :
    Answers i s (.next ((s.setReg r v).advance n)) := by
  refine .inr ⟨_, rfl, ?_, rfl, fun _ _ => by rw [hn]; rfl⟩
  rw [hw, hr]
  exact (onlyWrites_setReg_advance s r v n).regsKeptBut

/-- An instruction that writes no register and advances. -/
theorem Answers.keepsRegs {n : Nat} (hn : i.kind.arity = n) (hregs : t.regs = s.regs) (herr : t.err = s.err)
    (hpc : t.pc = s.pc) : Answers i s (.next (t.advance n)) :=
  .inr ⟨_, rfl, fun x _ => congrArg (RegFile.get · x) hregs, herr, fun _ _ => by rw [State.advance_pc, hpc, hn]⟩

/-- A control transfer, which sets `pc` itself. -/
theorem Answers.transfers (ht : i.kind.isTransfer = true) (hregs : RegsKeptBut (mayWrite i) s t)
    (herr : t.err = s.err) : Answers i s (.next t) :=
  .inr ⟨t, rfl, hregs, herr, fun _ hseq => by simp [ht] at hseq⟩

theorem Answers.jumpReg {a : Byte} (hwf : i.wellFormed = isRegIndex a) (ht : i.kind.isTransfer = true) :
    Answers i s (jumpReg a s) :=
  Answers.usingReg (fun ha => .inl (hwf.trans ha)) fun _ _ => Answers.transfers ht (fun _ _ => rfl) rfl

theorem Answers.fallThrough (hn : i.kind.arity = 1) : Answers i s (fallThrough s) :=
  .inr ⟨{ s with pc := s.pc + 2 }, rfl, fun _ _ => rfl, rfl, fun _ _ => by rw [hn]⟩

theorem Answers.aluBinary (f : Byte → Byte → Byte) {a b : Byte} (hwf : i.wellFormed = (isRegIndex a && isRegIndex b))
    (hw : mayWrite i = (regIndex a).toList) (hn : i.kind.arity = 2) : Answers i s (aluBinary f a b s) :=
  Answers.usingRegs hwf fun _ _ hr => Answers.writesReg hw hn hr _

theorem Answers.aluDivision (f : Byte → Byte → Byte) {a b : Byte}
    (hwf : i.wellFormed = (isRegIndex a && isRegIndex b)) (hw : mayWrite i = (regIndex a).toList)
    (hn : i.kind.arity = 2) (hraise : MayRaise i) : Answers i s (aluDivision f a b s) := by
  refine Answers.usingRegs hwf fun r q hr => ?_
  by_cases hq : s.reg q = 0
  · rw [if_pos hq]
    exact Answers.raises hraise _
  · rw [if_neg hq]
    exact Answers.writesReg hw hn hr _

/-! ### Every instruction -/

/-- Every instruction raises, if it may, or writes what the table of its family names. -/
theorem exec_answers (i : Instr) (s : State) : Answers i s (exec i s) := by
  cases i with
  | hlt => exact .inr ⟨_, rfl, fun _ _ => rfl, rfl, fun h => absurd rfl h⟩
  | ldi a imm => exact Answers.usingReg .inl fun r hr => Answers.writesReg rfl rfl hr imm
  | st a b => exact Answers.usingRegs rfl fun r q hr => Answers.writesReg rfl rfl hr (s.reg q)
  | prn a => exact Answers.usingReg .inl fun r _ => Answers.keepsRegs (t := s.emit _) rfl rfl rfl rfl
  | pra a =>
    have hraise : MayRaise (.pra a) := .inr (.inl rfl)
    by_cases hin : s.pc + 2 ≤ 255
    · rw [exec_pra_inside a hin]
      exact Answers.usingReg (fun _ => hraise) fun r _ => Answers.keepsRegs (t := s.emit _) rfl rfl rfl rfl
    · rw [exec_pra_outside a (Nat.lt_of_not_le hin)]
      exact Answers.raises hraise _
  | push a =>
    exact Answers.usingReg .inl fun r _ =>
      .inr ⟨_, rfl, ((onlyWrites_pushByte s (s.decSp.reg r)).advance 1).regsKeptBut, rfl, fun _ _ => rfl⟩
  | pop a =>
    refine Answers.usingReg .inl fun r hr => .inr ⟨(s.popInto r).advance 1, rfl, fun x hx => ?_, rfl, fun _ _ => rfl⟩
    refine ((onlyWrites_popInto s r).advance 1).regsKeptBut x ?_
    simpa [mayWrite, hr, Config.spIndex, and_comm] using hx
  | jmp a => exact Answers.jumpReg rfl rfl
  | jeq a =>
    cases he : s.flags.e with
    | true =>
      rw [exec_jeq_of_equal a he]
      exact Answers.jumpReg rfl rfl
    | false =>
      rw [exec_jeq_of_not_equal a he]
      exact Answers.fallThrough rfl
  | jne a =>
    cases he : s.flags.e with
    | true =>
      rw [exec_jne_of_equal a he]
      exact Answers.fallThrough rfl
    | false =>
      rw [exec_jne_of_not_equal a he]
      exact Answers.jumpReg rfl rfl
  | call a =>
    refine Answers.usingReg .inl fun r _ => ?_
    dsimp only
    by_cases hret : s.pc + 2 > 255
    · rw [if_pos hret]
      exact Answers.raises (.inr (.inr (.inr (.inr rfl)))) _
    · rw [if_neg hret]
      exact Answers.transfers rfl ((onlyWrites_pushByte s (wrap8 (s.pc + 2))).jumpTo _).regsKeptBut rfl
  | ret => exact Answers.transfers rfl ((onlyWrites_incSp s).jumpTo _).regsKeptBut rfl
  | add a b => exact Answers.aluBinary _ rfl rfl rfl
  | sub a b => exact Answers.aluBinary _ rfl rfl rfl
  | mul a b => exact Answers.aluBinary _ rfl rfl rfl
  | div a b => exact Answers.aluDivision _ rfl rfl rfl (.inr (.inr (.inl rfl)))
  | mod a b => exact Answers.aluDivision _ rfl rfl rfl (.inr (.inr (.inr (.inl rfl))))
  | and a b => exact Answers.aluBinary _ rfl rfl rfl
  | or a b => exact Answers.aluBinary _ rfl rfl rfl
  | xor a b => exact Answers.aluBinary _ rfl rfl rfl
  | not a => exact Answers.usingReg .inl fun r hr => Answers.writesReg rfl rfl hr _
  | shl a b => exact Answers.aluBinary _ rfl rfl rfl
  | shr a b => exact Answers.aluBinary _ rfl rfl rfl
  | cmp a b =>
    exact Answers.usingRegs rfl fun r q _ =>
      Answers.keepsRegs (t := { s with flags := compareFlags (s.reg r) (s.reg q) }) rfl rfl rfl rfl

/-! ### The claims over all instructions -/

/-- Settles O11: an error writes no register, and an effect those of the table. -/
theorem registersChangeOnlyByTable : Obligations.RegistersChangeOnlyByTable := by
  intro i s t h
  obtain ⟨-, e, h'⟩ | ⟨u, h', hu⟩ := exec_answers i s <;> cases h.symm.trans h'
  · exact fun _ _ => rfl
  · exact hu.regs

/-- R39: memory is kept, or a PUSH or CALL has written the byte at SP - 1. -/
theorem exec_mem (h : exec i s = .next t) :
    t.mem = s.mem ∨ (i.kind = .push ∨ i.kind = .call) ∧ ∃ v, t.mem = s.mem.write s.pushSlot.toNat v := by
  obtain ⟨e, -, h'⟩ | ⟨-, h'⟩ | ⟨u, h', hu⟩ := exec_cases i s <;> cases h.symm.trans h'
  · exact .inl rfl
  · exact .inl rfl
  · exact hu.mem

/-- Settles O12: the one write is the push's. -/
theorem memoryChangesOnlyAtPushSlot : Obligations.MemoryChangesOnlyAtPushSlot := by
  intro i s t h
  obtain hmem | ⟨hkind, v, hmem⟩ := exec_mem h
  · exact ⟨fun _ _ => hmem, fun addr _ => by rw [hmem]⟩
  · refine ⟨fun hpush hcall => (hkind.elim hpush hcall).elim, fun addr haddr => ?_⟩
    rw [hmem]
    exact memoryKeptBut_write s _ v addr haddr

/-- R75: an instruction that completes ends after its bytes, unless it is the halt or sets `pc` itself. -/
theorem exec_pc (h : exec i s = .next t) (ht : t.err = none) (hhlt : i.kind ≠ .hlt)
    (hseq : i.kind.isTransfer = false) : t.pc = s.pc + 1 + i.kind.arity := by
  obtain ⟨-, e, h'⟩ | ⟨u, h', hu⟩ := exec_answers i s <;> cases h.symm.trans h'
  · exact absurd ht (Option.some_ne_none e)
  · exact hu.pc hhlt hseq

/-- Settles O17: under a conforming map the opcode byte's bits are the kind's operand count and whether it sets `pc`,
and `exec_pc` speaks of both. -/
theorem opcodeBitsDriveSequencer : Obligations.OpcodeBitsDriveSequencer := by
  refine ⟨fun ir => ⟨rfl, setsPcDirectly_eq_bit ir⟩, setsPcDirectly_opcodeByte .hlt, fun rom hrom i => ?_⟩
  have ⟨hcount, htransfer, _, _⟩ := hrom
  have hkind : i ≠ .hlt → i.kind ≠ .hlt := mt i.kind_eq_hlt_iff.mp
  refine ⟨hrom.operandCount_eq_length i, fun hi => ?_, fun s t _ h ht hbit hi => ?_⟩
  · rw [htransfer i.kind (hkind hi), Kind.isTransfer_iff]
  · rw [htransfer i.kind (hkind hi)] at hbit
    rw [hcount]
    exact exec_pc h ht (hkind hi) hbit

/-- Settles O27: only an instruction that is not well formed, or one of the four left out, may raise. -/
theorem wellFormedInstructionStepsSafely : Obligations.WellFormedInstructionStepsSafely := by
  intro i s hrun herr hat hwf hpra hdiv hmod hcall
  have hsafe : ¬ MayRaise i := by simp [MayRaise, hwf, hpra, hdiv, hmod, hcall]
  obtain ⟨hraise, -⟩ | ⟨t, h, ht⟩ := exec_answers i s
  · exact absurd hraise hsafe
  · exact ⟨t, (cycle_of_instructionAt opcodeByte_conforms hrun hat).trans h, ht.err.trans herr⟩

end Sys2Proof.Machine
